-- ==== Sys2Proof/Word.lean ====
section
/-! DEFINITION. The word types of VJ-PKTCODEC: what the spec treats as bits, by width. -/

namespace Sys2Proof

/-- A byte is 8 bits everywhere (20_memory.md R60). -/
abbrev Byte := BitVec 8

/-- A 16-bit field: a value id, an RPM channel, a short of a value payload. -/
abbrev Half := BitVec 16

/-- A 32-bit register: `NODE`, `RPM_IN[k]`, `VAL_IN`, `R_VAL`, `R_ADDR`, a binary32 component. -/
abbrev Word := BitVec 32

/-- A tick count of the monotonic clock, `TS_W` = 64 bits (10_state.md R44). -/
abbrev Tick := BitVec 64

end Sys2Proof
end

