-- ==== Sys2Proof/Machine/Bytes.lean ====
section
/-! DEFINITION. Byte order and narrowing, in one place (20_memory.md R62, R63; 00_scope.md R10). -/

namespace Sys2Proof.Machine

/-- `le16`: the byte at the lower index is the less significant (00_scope.md R10). -/
def le16 (b0 b1 : Byte) : Half := b1 ++ b0

/-- `le32`: the byte at the lowest index is the least significant (00_scope.md R10). -/
def le32 (b0 b1 b2 b3 : Byte) : Word := b3 ++ b2 ++ b1 ++ b0

/-- Byte `i` of a value, byte 0 the least significant: `v[8i+7 : 8i]` (20_memory.md R63). -/
def byteOf {n : Nat} (v : BitVec n) (i : Nat) : Byte := v.extractLsb' (8 * i) 8

/-- The bytes of a register `n` bytes wide, the byte of the lowest offset first (20_memory.md R63). -/
def toBytes (n : Nat) (v : BitVec 64) : List Byte := (List.range n).map (byteOf v)

/-- The value of the bytes of a register, the byte of the lowest offset first (20_memory.md R63). -/
def ofBytes : List Byte → BitVec 64
  | [] => 0
  | b :: bs => b.setWidth 64 ||| ofBytes bs <<< 8

/-- A signed number that the 16 bits of a wire field represent, [-32768, 32767] (30_encoding.md R87; 41_telemetry.md
R141). -/
def fitsSigned16 (v : Word) : Bool := decide (-32768 ≤ v.toInt ∧ v.toInt ≤ 32767)

/-- An unsigned number that 16 bits represent, at most 65535 (42_value_registry.md R165). -/
def fitsUnsigned16 (v : Word) : Bool := decide (v.toNat ≤ 65535)

end Sys2Proof.Machine
end

