-- ==== Sys2Proof/Config.lean ====
section
/-! DEFINITION. The parameters of a build of the block (00_scope.md R8) and the values the spec leaves open.
A build's parameters are plain data, a field of State that no step writes (log 1), so that a statement about every
state is a statement about every build. An `opaque` constant is a value the spec leaves open: nothing in Lean knows it. -/

namespace Sys2Proof

/-- The four wire formats a registry entry may name (00_scope.md R12, 30_encoding.md R88). -/
inductive WireFormat where
  | signedShort16
  | unsignedShort16
  | float32
  | bool8
deriving DecidableEq, Repr

/-- The contents of the registry ROM: the registered ids with their formats (10_state.md R42). An id that is not
listed has no format; of two entries with one id the first is the entry (log 22). -/
abbrev Registry := List (Half × WireFormat)

/-- The parameters of a build: fixed for the life of the block (10_state.md R48, 00_scope.md R8). -/
structure Params where
  /-- `RR_PAD_LEN`: the pad bytes of a request/reply frame, 0 or 1. -/
  rrPadLen : Fin 2
  /-- `HAS_VAL_ENC`: whether `VAL_ENC` and `VAL_IN` exist. -/
  hasValEnc : Bool
  /-- `HAS_TIMER`: whether the Periodic Timer companion exists. -/
  hasTimer : Bool
  /-- `HAS_VEC2`: whether the Vec2 companion exists. -/
  hasVec2 : Bool
  /-- `REQ_BASE`: the base address for outgoing requests (10_state.md R43). -/
  reqBase : Word
  /-- `REP_BASE`: the base address for incoming replies (10_state.md R43). -/
  repBase : Word
  /-- `REGISTRY`: the registry ROM (10_state.md R42). -/
  registry : Registry
deriving DecidableEq, Repr

namespace Config

/-- `TLM_LEN`, the length of a telemetry frame: 8, fixed by the source (00_scope.md R8). -/
def tlmLen : Nat := 8

/-- `PAY_LEN`, the length of a value payload: 4, fixed by the source (00_scope.md R8). -/
def payLen : Nat := 4

/-- The size of the host register space in bytes (20_memory.md R60, R66). -/
def spaceSize : Nat := 256

/-- The registry of the build that comes out of reset: OPEN (00_scope.md R8, R9; U8; log 2). -/
opaque registry : Registry

/-- `REQ_BASE` of the build that comes out of reset: OPEN (00_scope.md R8; U18; log 2). -/
opaque reqBase : Word

/-- `REP_BASE` of the build that comes out of reset: OPEN (00_scope.md R8; U18; log 2). -/
opaque repBase : Word

/-- What the time input answers when the block comes out of reset: OPEN (10_state.md R44; U11; log 3). -/
opaque timeAtReset : Tick

/-- `TMR_INIT_DEADLINE`: the deadline a `TMR_INIT` leaves, a free 64-bit draw (60_exceptions.md R211; U9; log 4). -/
opaque initDeadline : Nat → Tick

/-- The draw behind the x component of a `VEC2_NEW` whose `VX_IN` is a NaN (46_companion_vec2.md R183; log 4). -/
opaque nanComponentX : Nat → Word

/-- The draw behind the y component of a `VEC2_NEW` whose `VY_IN` is a NaN (46_companion_vec2.md R183; log 4). -/
opaque nanComponentY : Nat → Word

/-- What a host read of a register that holds no value returns, by draw and by the register's offset
(10_state.md R36, R49; U6; log 5). -/
opaque unspecifiedBits : Nat → Nat → BitVec 64

/-- The build that comes out of reset: `RR_PAD_LEN` = 1 and `HAS_VAL_ENC` as 00_scope.md R8 decides, both companions
present (DESIGN CHOICE, log 1), the OPEN parameters left open. -/
def params : Params where
  rrPadLen := 1
  hasValEnc := true
  hasTimer := true
  hasVec2 := true
  reqBase := Config.reqBase
  repBase := Config.repBase
  registry := Config.registry

end Config

end Sys2Proof
end

