-- ==== Sys2Proof/Machine/State.lean ====
section
/-! DEFINITION. The state of the block as plain data (10_state.md), the host's pending accesses, the reasons a step
can stop, and the state after reset. -/

namespace Sys2Proof.Machine

/-- The result groups of `RVALID`, in the order of their bits (10_state.md R36). -/
inductive Group where
  | out | rr | tlm | val | addr | tmr | vec | fmt
deriving DecidableEq, Repr

/-- The errors a command can raise (60_exceptions.md R191). -/
inductive CommandError where
  | invalidOperation
  | malformedPacket
  | invalidPayloadLength
  | unregisteredValueId
  | valueOutOfRange
  | illegalCommand
deriving DecidableEq, Repr

/-- The operand registers (10_state.md R22 to R32, R45, R46): written by the host, only read by the block (R21). -/
structure Operands where
  /-- `OP` (R22). -/
  op : Byte
  /-- `SUCC` (R23). -/
  succ : Bool
  /-- `DIR`: 0 request, 1 reply (R24). -/
  dir : Bool
  /-- `VID` (R25). -/
  vid : Half
  /-- `PAY[0..3]` (R26). -/
  pay : Vector Byte 4
  /-- `NODE` (R27). -/
  node : Word
  /-- `RPM_IN[0..3]`, two's complement (R28). -/
  rpmIn : Vector Word 4
  /-- `VAL_IN`, part of the block when `HAS_VAL_ENC` (R29). -/
  valIn : Word
  /-- `IN_BUF[0..15]` (R31). -/
  inBuf : Vector Byte 16
  /-- `IN_LEN` (R32). -/
  inLen : Byte
  /-- `PERIOD_IN`, part of the block when `HAS_TIMER` (R45). -/
  periodIn : Tick
  /-- `VX_IN`, part of the block when `HAS_VEC2` (R46). -/
  vxIn : Word
  /-- `VY_IN`, part of the block when `HAS_VEC2` (R46). -/
  vyIn : Word
deriving DecidableEq, Repr

/-- Group `OUT` (R37). -/
structure OutGroup where
  /-- `OUT_BUF[0..7]`. -/
  buf : Vector Byte 8
  /-- `OUT_LEN`. -/
  len : Byte
deriving DecidableEq, Repr

/-- Group `RR`, a decoded request/reply message (R38). -/
structure RrGroup where
  /-- `R_OP`. -/
  op : BitVec 7
  /-- `R_SUCC`. -/
  succ : Bool
  /-- `R_OPCLS`. -/
  cls : BitVec 3
  /-- `R_VID`. -/
  vid : Half
  /-- `R_PAY[0..3]`. -/
  pay : Vector Byte 4
  /-- `R_RR_TS`. -/
  ts : Tick
deriving DecidableEq, Repr

/-- Group `TLM`, a decoded telemetry message (R39). -/
structure TlmGroup where
  /-- `R_RPM[0..3]`, two's complement. -/
  rpm : Vector Half 4
  /-- `R_TLM_TS`. -/
  ts : Tick
deriving DecidableEq, Repr

/-- Group `VAL`, a tagged value (R40). -/
structure ValGroup where
  /-- `R_FMT`. -/
  fmt : BitVec 2
  /-- `R_VAL`. -/
  val : Word
deriving DecidableEq, Repr

/-- Group `TMR`, the answer of a timer check (R45). -/
structure TmrGroup where
  /-- `R_FIRED`. -/
  fired : Bool
  /-- `R_MISSED`. -/
  missed : Tick
deriving DecidableEq, Repr

/-- Group `VEC`, a clamped vector (R46). -/
structure VecGroup where
  /-- `R_VX`. -/
  x : Word
  /-- `R_VY`. -/
  y : Word
deriving DecidableEq, Repr

/-- The result registers by group. A group whose valid bit is 0 is absent: its registers hold no value (R36: "A model
represents a result register of an invalid group as absent"). -/
structure Results where
  out : Option OutGroup
  rr : Option RrGroup
  tlm : Option TlmGroup
  val : Option ValGroup
  /-- `R_ADDR` (R41). -/
  addr : Option Word
  tmr : Option TmrGroup
  vec : Option VecGroup
  /-- `R_LFMT` (R40). -/
  fmt : Option (BitVec 2)
deriving DecidableEq, Repr

/-- The Periodic Timer once created (R45). -/
structure Timer where
  /-- `TMR_PERIOD`, in ticks. -/
  period : Tick
  /-- `TMR_DEADLINE`, a tick count. -/
  deadline : Tick
deriving DecidableEq, Repr

/-- One access the outside world makes (10_state.md R20, 20_memory.md R67, 70_reset_and_hazards.md R230). -/
inductive HostAccess where
  /-- The host writes bytes at an offset of the register space, the byte of the lowest offset first. -/
  | write (offset : Nat) (data : List Byte)
  /-- The host reads a number of bytes at an offset. -/
  | read (offset : Nat) (size : Nat)
  /-- The reset is applied (R230). -/
  | reset
  /-- The time source moves on to a tick count (R44). -/
  | time (now : Tick)
deriving DecidableEq, Repr

/-- The whole state: what the spec gives the block, the build's parameters, the environment's pending inputs and the
model's own fields. -/
structure State where
  /-- The parameters of the build; no step writes them (R48; log 1). -/
  params : Params
  /-- The operand registers. -/
  ops : Operands
  /-- `CMD`, the code last written (R33). -/
  cmd : Byte
  /-- `STATUS` (R34). -/
  status : Byte
  /-- The result groups; `RVALID` is computed from them (R36). -/
  res : Results
  /-- The timer; `TMR_CREATED` is computed from it (R45, R49). -/
  timer : Option Timer
  /-- What the time input answers now (R44; log 3). -/
  now : Tick
  /-- The model's own: the counter free values are applied to (log 4). -/
  draw : Nat
  /-- The accesses still to be served, oldest first (R71; log 9). -/
  inbox : List HostAccess
  /-- The model's own: the bytes the host's last read returned (log 16). -/
  readData : List Byte
deriving DecidableEq, Repr

/-- The reasons the machine stops with a fault. All are safe: the spec gives the block no next state there. -/
inductive Fault where
  /-- Raised by `TMR_CHECK` and `TMR_RESET` when the new deadline would reach 2^64: "the result is not defined"
  (60_exceptions.md R213, R217), treated as stuck by 93_implementation_defined.md U15. Safe (log 11). -/
  | deadlineOverflow
  /-- Raised by `TMR_CHECK` on a due timer of period 0, which no run reaches (`TMR_INIT` refuses it, R211): the
  division of R213 is meaningless. Safe (log 12). -/
  | zeroPeriod
  /-- Raised by a host access beyond the 256 bytes of the host register space (20_memory.md R60, R66). Safe (log 14). -/
  | outsideRegisterSpace
deriving DecidableEq, Repr

/-- The reasons a step is refused. All are safe: the model declines to go on. -/
inductive Refusal where
  /-- Raised by `exec` for an instruction that has no meaning in the model. Safe. -/
  | notModelled (mnemonic : String)
  /-- Raised by a host access that covers part of a register, or more than one: "a model refuses it"
  (20_memory.md R67). Safe (log 14). -/
  | partialAccess
  /-- Raised by any host access but a read of `STATUS` while `STATUS.BUSY` = 1 (70_reset_and_hazards.md R239). No run
  of the atomic model reaches it. Safe (log 15). -/
  | busyAccess
deriving DecidableEq, Repr

/-- Every operand register zero (10_state.md R49). -/
def Operands.reset : Operands where
  op := 0
  succ := false
  dir := false
  vid := 0
  pay := #v[0, 0, 0, 0]
  node := 0
  rpmIn := #v[0, 0, 0, 0]
  valIn := 0
  inBuf := #v[0, 0, 0, 0, 0, 0, 0, 0, 0, 0, 0, 0, 0, 0, 0, 0]
  inLen := 0
  periodIn := 0
  vxIn := 0
  vyIn := 0

/-- Every result group invalid (10_state.md R49). -/
def Results.reset : Results where
  out := none
  rr := none
  tlm := none
  val := none
  addr := none
  tmr := none
  vec := none
  fmt := none

/-- The machine right after reset (10_state.md R49); the build is `Config.params` and the time input is open. -/
def State.reset : State where
  params := Config.params
  ops := .reset
  cmd := 0
  status := 0
  res := .reset
  timer := none
  now := Config.timeAtReset
  draw := 0
  inbox := []
  readData := []

end Sys2Proof.Machine
end

