-- ==== Sys2Proof/Machine/Flags.lean ====
section
/-! DEFINITION. The condition bits (10_state.md R35): the fields of `STATUS` (R34), the error codes (60_exceptions.md
R191) and the valid bits of `RVALID` (R36). -/

namespace Sys2Proof.Machine

/-- The code of an error in `STATUS.ERR` (60_exceptions.md R191). -/
def CommandError.code : CommandError → BitVec 4
  | .invalidOperation => 1
  | .malformedPacket => 2
  | .invalidPayloadLength => 3
  | .unregisteredValueId => 4
  | .valueOutOfRange => 5
  | .illegalCommand => 6

/-- `STATUS` as a completing command leaves it: `ERR` and `CATCHUP` as given, bit 5 zero, `BUSY` = 0, `DONE` = 1
(10_state.md R34, 70_reset_and_hazards.md R238). -/
def statusDone (err : BitVec 4) (catchup : Bool) : Byte :=
  0x80 ||| (BitVec.ofBool catchup).setWidth 8 <<< 4 ||| err.setWidth 8

/-- `STATUS.ERR`, bits 3:0 (R34). -/
def statusErr (status : Byte) : BitVec 4 := status.extractLsb' 0 4

/-- `STATUS.CATCHUP`, bit 4 (R34). -/
def statusCatchup (status : Byte) : Bool := status.getLsbD 4

/-- `STATUS` bit 5, reserved (R34). -/
def statusReserved (status : Byte) : Bool := status.getLsbD 5

/-- `STATUS.BUSY`, bit 6 (R34). -/
def statusBusy (status : Byte) : Bool := status.getLsbD 6

/-- `STATUS.DONE`, bit 7 (R34). -/
def statusDoneBit (status : Byte) : Bool := status.getLsbD 7

/-- The valid bit of a group: 1 exactly when the group's registers hold a value (R36). -/
def Results.valid (r : Results) : Group → Bool
  | .out => r.out.isSome
  | .rr => r.rr.isSome
  | .tlm => r.tlm.isSome
  | .val => r.val.isSome
  | .addr => r.addr.isSome
  | .tmr => r.tmr.isSome
  | .vec => r.vec.isSome
  | .fmt => r.fmt.isSome

/-- `RVALID`: bits 0 to 7 are the groups `OUT`, `RR`, `TLM`, `VAL`, `ADDR`, `TMR`, `VEC`, `FMT` (R36). -/
def Results.rvalid (r : Results) : Byte :=
  BitVec.ofBool (r.valid .fmt) ++ BitVec.ofBool (r.valid .vec) ++ BitVec.ofBool (r.valid .tmr)
    ++ BitVec.ofBool (r.valid .addr) ++ BitVec.ofBool (r.valid .val) ++ BitVec.ofBool (r.valid .tlm)
    ++ BitVec.ofBool (r.valid .rr) ++ BitVec.ofBool (r.valid .out)

/-- One group made invalid: its registers hold no value from now on (60_exceptions.md R196). -/
def Results.invalidate (r : Results) : Group → Results
  | .out => { r with out := none }
  | .rr => { r with rr := none }
  | .tlm => { r with tlm := none }
  | .val => { r with val := none }
  | .addr => { r with addr := none }
  | .tmr => { r with tmr := none }
  | .vec => { r with vec := none }
  | .fmt => { r with fmt := none }

/-- Several groups made invalid (60_exceptions.md R196). -/
def Results.invalidateAll (r : Results) : List Group → Results
  | [] => r
  | g :: gs => (r.invalidate g).invalidateAll gs

end Sys2Proof.Machine
end

