-- ==== Sys2Proof/Machine/Ops.lean ====
section
/-! DEFINITION. The shared operations of the commands: completing, raising an error (60_exceptions.md R196), reading
the input buffer, the registry and the time input. -/

namespace Sys2Proof.Machine

/-- What a meaning answers. -/
abbrev Result := Host.Outcome State Fault Refusal

/-! ### Completion and errors -/

/-- The publication of a completing command: `STATUS` rewritten, `BUSY` = 0, `DONE` = 1 (10_state.md R34,
70_reset_and_hazards.md R238); the counter of free values moves on (log 4). -/
def finish (err : BitVec 4) (catchup : Bool) (s : State) : State :=
  { s with status := statusDone err catchup, draw := s.draw + 1 }

/-- A command that succeeds with the given results: `STATUS.ERR` = 0 (10_state.md R36). -/
def succeed (res : Results) (s : State) : Result :=
  .next (finish 0 false { s with res := res })

/-- The state an error leaves: the command's groups become invalid, `STATUS.ERR` gets the code, `CATCHUP` = 0, and
nothing else changes (60_exceptions.md R196). -/
def raised (e : CommandError) (groups : List Group) (s : State) : State :=
  finish e.code false { s with res := s.res.invalidateAll groups }

/-- `raise E` by a command that owns the given groups: the block's exception entry, a next state (60_exceptions.md
R196). There is nothing to return to and nothing to restore (R201). -/
def raise (e : CommandError) (groups : List Group) (s : State) : Result :=
  .next (raised e groups s)

/-- An illegal command: it owns no result group, every valid bit keeps its value (60_exceptions.md R195). -/
def illegalCommand (s : State) : Result := raise .illegalCommand [] s

/-- A command of a unit that may be absent: without the unit its code is illegal (30_encoding.md R96). -/
def ifPresent (unitPresent : Bool) (meaning : State → Result) (s : State) : Result :=
  if unitPresent then meaning s else illegalCommand s

/-! ### Inputs of the commands -/

/-- `RR_LEN = 7 + RR_PAD_LEN`, the length of a request/reply frame (00_scope.md R8, 30_encoding.md R81). -/
def rrLen (p : Params) : Nat := 7 + p.rrPadLen.val

/-- The length test of a decoder: `IN_LEN` is compared for equality and used for nothing else (10_state.md R32). -/
def lengthIs (n : Nat) (s : State) : Bool := decide (s.ops.inLen.toNat = n)

/-- `IN_BUF[i]` (10_state.md R31). -/
def inByte (s : State) (i : Fin 16) : Byte := s.ops.inBuf.get i

/-- `le16(IN_BUF, i)` for `i` up to 14 (00_scope.md R10). -/
def inHalf (s : State) (i : Fin 15) : Half := le16 (inByte s i.castSucc) (inByte s i.succ)

/-- `le32(IN_BUF, 0)` (00_scope.md R10). -/
def inWord0 (s : State) : Word := le32 (inByte s 0) (inByte s 1) (inByte s 2) (inByte s 3)

/-- `REGISTRY(id)`: the first entry of the id, or none (10_state.md R42; log 22). -/
def Registry.formatOf : Registry → Half → Option WireFormat
  | [], _ => none
  | (id, f) :: rest, vid => if id = vid then some f else Registry.formatOf rest vid

/-- `REGISTRY(VID)` of the build. -/
def vidFormat (s : State) : Option WireFormat := Registry.formatOf s.params.registry s.ops.vid

/-- `now()`: what the time input answers in this step (10_state.md R44, 70_reset_and_hazards.md R238: read once, at
the command's step). -/
def now (s : State) : Tick := s.now

/-! ### The environment -/

/-- The time input moves on; a monotonic clock never answers less than it has answered (10_state.md R44; log 3). -/
def advanceTime (t : Tick) (s : State) : State :=
  { s with now := if s.now.toNat ≤ t.toNat then t else s.now }

/-- The reset, applied between commands or while one is in progress (70_reset_and_hazards.md R230, R231): the table of
10_state.md R49 and nothing else. The build, the time input and the host's pending accesses are not the block's to
reset (log 17). -/
def applyReset (s : State) : State :=
  { s with
    ops := .reset
    cmd := 0
    status := 0
    res := .reset
    timer := none
    draw := s.draw + 1 }

end Sys2Proof.Machine
end

