-- ==== Sys2Proof/Machine/PeriodicTimer.lean ====
section
/-! DEFINITION. The Periodic Timer companion (60_exceptions.md section 6): TMR_INIT, TMR_CHECK, TMR_RESET. Deadlines
are computed on natural numbers (R210, R213) and stored in 64 bits. -/

namespace Sys2Proof.Machine

/-- A tick count that a 64-bit register holds. -/
def fitsTick (n : Nat) : Bool := decide (n < 2 ^ 64)

/-- TMR_INIT where the timer exists (60_exceptions.md R211). The deadline is a free 64-bit value (U9; log 4). -/
def tmrInitPresent (s : State) : Result :=
  if s.ops.periodIn = 0 then raise .valueOutOfRange [] s
  else .next (finish 0 false { s with timer := some ⟨s.ops.periodIn, Config.initDeadline s.draw⟩ })

/-- TMR_INIT (60_exceptions.md R211). -/
def execTmrInit (s : State) : Result := ifPresent s.params.hasTimer tmrInitPresent s

/-- `missedPeriods = floor((now - deadline) / period)` (60_exceptions.md R213). -/
def missedPeriods (t : Timer) (time : Tick) : Nat :=
  (time.toNat - t.deadline.toNat) / t.period.toNat

/-- `deadline + (missedPeriods + 1) * period`, exact (60_exceptions.md R213). -/
def nextDeadline (t : Timer) (time : Tick) : Nat :=
  t.deadline.toNat + (missedPeriods t time + 1) * t.period.toNat

/-- A timer whose deadline has come: "before the deadline" is strict (60_exceptions.md R212, R213). -/
def isDue (t : Timer) (time : Tick) : Bool := decide (t.deadline.toNat ≤ time.toNat)

/-- A firing check: `CATCHUP` reports missed periods (60_exceptions.md R213, R215). -/
def fire (t : Timer) (s : State) : State :=
  let missed := missedPeriods t (now s)
  finish 0 (decide (0 < missed))
    { s with
      timer := some { t with deadline := BitVec.ofNat 64 (nextDeadline t (now s)) }
      res := { s.res with tmr := some ⟨true, BitVec.ofNat 64 missed⟩ } }

/-- A check before the deadline: the answer registers are written, the timer is not (60_exceptions.md R213). -/
def notYet (s : State) : State :=
  finish 0 false { s with res := { s.res with tmr := some ⟨false, 0⟩ } }

/-- TMR_CHECK on a timer (60_exceptions.md R213). A deadline that would reach 2^64 is not defined: stuck (U15; log 11);
a period of 0, which no run reaches, has no quotient (log 12). -/
def checkTimer (t : Timer) (s : State) : Result :=
  if isDue t (now s) then
    if t.period = 0 then .fault .zeroPeriod
    else if fitsTick (nextDeadline t (now s)) then .next (fire t s)
    else .fault .deadlineOverflow
  else .next (notYet s)

/-- TMR_CHECK where the timer exists: illegal before a `TMR_INIT`, and then it owns no group (60_exceptions.md R195,
R213; log 10). -/
def tmrCheckPresent (s : State) : Result :=
  match s.timer with
  | none => illegalCommand s
  | some t => checkTimer t s

/-- TMR_CHECK (60_exceptions.md R213). -/
def execTmrCheck (s : State) : Result := ifPresent s.params.hasTimer tmrCheckPresent s

/-- `now() + TMR_PERIOD`, exact (60_exceptions.md R217). -/
def realigned (t : Timer) (time : Tick) : Nat := time.toNat + t.period.toNat

/-- TMR_RESET where the timer exists (60_exceptions.md R217); a deadline that would reach 2^64 is not defined: stuck
(U15; log 11). -/
def tmrResetPresent (s : State) : Result :=
  match s.timer with
  | none => illegalCommand s
  | some t =>
    if fitsTick (realigned t (now s)) then
      .next (finish 0 false
        { s with timer := some { t with deadline := BitVec.ofNat 64 (realigned t (now s)) } })
    else .fault .deadlineOverflow

/-- TMR_RESET (60_exceptions.md R217). -/
def execTmrReset (s : State) : Result := ifPresent s.params.hasTimer tmrResetPresent s

end Sys2Proof.Machine
end

