-- ==== Sys2Proof/Syntax.lean ====
section
/-! DEFINITION. The instructions: one constructor per row of spec/opcode_table.json. -/

namespace Sys2Proof

/-- The three formats of spec/opcode_table.json (30_encoding.md R103). -/
inductive Format where
  /-- A command code, the byte written to `CMD` (R95). -/
  | cmd8
  /-- Byte 0 of a request/reply frame: success flag and operation code (R82). -/
  | rrByte0
  /-- The 2-bit format code of a registry entry (R88). -/
  | valFmt
deriving DecidableEq, Repr

/-- The rows of spec/opcode_table.json. A command has no operand field (R95): its operands are the operand
registers. A row over byte 0 of a frame carries the success flag of bit 7 (R82), the reserved row its code too. -/
inductive Instr where
  -- CMD8: the commands (30_encoding.md R95)
  | rrEnc
  | rrDec
  | rrBuild
  | tlmEnc
  | tlmDec
  | fmtLookup
  | valDec
  | valEnc
  | tmrInit
  | tmrCheck
  | tmrReset
  | vec2New
  -- RR_BYTE0: the operation codes (30_encoding.md R83)
  | noOp (success : Bool)
  | read (success : Bool)
  | write (success : Bool)
  | store (success : Bool)
  | reserved (success : Bool) (operation : BitVec 7)
  -- VALFMT: the value payload formats (30_encoding.md R88)
  | signedShort16
  | unsignedShort16
  | float32
  | bool8
deriving DecidableEq, Repr

/-- The format of a row of the table. -/
def Instr.format : Instr → Format
  | .rrEnc | .rrDec | .rrBuild | .tlmEnc | .tlmDec | .fmtLookup | .valDec | .valEnc
  | .tmrInit | .tmrCheck | .tmrReset | .vec2New => .cmd8
  | .noOp _ | .read _ | .write _ | .store _ | .reserved _ _ => .rrByte0
  | .signedShort16 | .unsignedShort16 | .float32 | .bool8 => .valFmt

end Sys2Proof
end

