-- ==== Sys2Proof/WellFormed.lean ====
section
/-! DEFINITION. Which instruction terms stand for a row of the table. -/

namespace Sys2Proof

/-- The reserved row covers the codes 4 to 127 only (40_request_reply.md R125): the codes 0 to 3 have rows of their
own. Every other row's fields take every value of their type. -/
def Instr.wf : Instr → Bool
  | .reserved _ operation => decide (4 ≤ operation.toNat)
  | .rrEnc | .rrDec | .rrBuild | .tlmEnc | .tlmDec | .fmtLookup | .valDec | .valEnc
  | .tmrInit | .tmrCheck | .tmrReset | .vec2New
  | .noOp _ | .read _ | .write _ | .store _
  | .signedShort16 | .unsignedShort16 | .float32 | .bool8 => true

end Sys2Proof
end

