-- ==== Sys2Proof/Decode.lean ====
section
/-! DEFINITION. From words to instructions and back (30_encoding.md sections 1 to 5, spec/opcode_table.json). -/

namespace Sys2Proof

/-- Why a word is no instruction of a format. -/
inductive DecodeError where
  /-- A byte that is none of the twelve command codes (30_encoding.md R96). -/
  | illegalCommand (code : Byte)
  /-- A byte that does not fit the 2 bits of a format code (30_encoding.md R88). -/
  | notAFormatCode (word : Byte)
deriving DecidableEq, Repr

/-! ### The pair of accessors over byte 0 (40_request_reply.md R110) -/

/-- `pack0(op, s) = op | (s << 7)` (R110, 30_encoding.md R82). -/
def pack0 (op : BitVec 7) (success : Bool) : Byte :=
  op.setWidth 8 ||| (BitVec.ofBool success).setWidth 8 <<< 7

/-- The operation of `unpack0(b)`: bits 6:0 (R110). -/
def unpackOp (b : Byte) : BitVec 7 := b.extractLsb' 0 7

/-- The success flag of `unpack0(b)`: bit 7 (R110). -/
def unpackSuccess (b : Byte) : Bool := b.getLsbD 7

/-! ### Format codes (30_encoding.md R88) -/

/-- The 2-bit code of a wire format (R88; `R_FMT`, `R_LFMT`). -/
def WireFormat.code : WireFormat → BitVec 2
  | .signedShort16 => 0
  | .unsignedShort16 => 1
  | .float32 => 2
  | .bool8 => 3

/-- The number of value bytes of a format, `width(f)` (42_value_registry.md R157); `4 - width(f)` bytes are pad. -/
def WireFormat.width : WireFormat → Nat
  | .signedShort16 => 2
  | .unsignedShort16 => 2
  | .float32 => 4
  | .bool8 => 1

/-- The wire format a 2-bit code names: all four codes are taken (R88). -/
def WireFormat.ofCode (c : BitVec 2) : WireFormat :=
  if c = 0 then .signedShort16
  else if c = 1 then .unsignedShort16
  else if c = 2 then .float32
  else .bool8

/-! ### The decoder -/

/-- The command a byte written to `CMD` selects: the byte is compared with the twelve codes (30_encoding.md R95),
every other value, 0x00 among them, is illegal (R96). Whether the command's unit exists is not a matter of the code
(see `Sys2Proof.Machine.illegalCommand`). -/
def decodeCmd8 (code : Byte) : Except DecodeError Instr :=
  match code.toNat with
  | 0x01 => .ok .rrEnc
  | 0x02 => .ok .rrDec
  | 0x03 => .ok .rrBuild
  | 0x04 => .ok .tlmEnc
  | 0x05 => .ok .tlmDec
  | 0x06 => .ok .fmtLookup
  | 0x07 => .ok .valDec
  | 0x08 => .ok .valEnc
  | 0x10 => .ok .tmrInit
  | 0x11 => .ok .tmrCheck
  | 0x12 => .ok .tmrReset
  | 0x18 => .ok .vec2New
  | _ => .error (.illegalCommand code)

/-- The row a byte 0 of a request/reply frame belongs to: no byte 0 is illegal (30_encoding.md R83, R97 (b)). -/
def decodeByte0 (b : Byte) : Instr :=
  if unpackOp b = 0 then .noOp (unpackSuccess b)
  else if unpackOp b = 1 then .read (unpackSuccess b)
  else if unpackOp b = 2 then .write (unpackSuccess b)
  else if unpackOp b = 3 then .store (unpackSuccess b)
  else .reserved (unpackSuccess b) (unpackOp b)

/-- The row of a wire format. -/
def WireFormat.instr : WireFormat → Instr
  | .signedShort16 => .signedShort16
  | .unsignedShort16 => .unsignedShort16
  | .float32 => .float32
  | .bool8 => .bool8

/-- The row a 2-bit format code names (30_encoding.md R88). -/
def decodeFormat (c : BitVec 2) : Instr := (WireFormat.ofCode c).instr

/-- The decoder, total on every byte of every format, rejecting by name. The three formats have overlapping words
(0x01 is `RR_ENC`, `Read` and `UnsignedShort16`), so the format is an argument: it is where the word stands that
tells a command from an operation byte and from a registry entry (30_encoding.md R98, R103). -/
def decode (f : Format) (word : Byte) : Except DecodeError Instr :=
  match f with
  | .cmd8 => decodeCmd8 word
  | .rrByte0 => .ok (decodeByte0 word)
  | .valFmt => if word.toNat < 4 then .ok (decodeFormat (word.setWidth 2)) else .error (.notAFormatCode word)

/-! ### The encoder -/

/-- The word of an instruction in its own format, from the codes of 30_encoding.md R95, R83 and R88. -/
def encode : Instr → Byte
  | .rrEnc => 0x01
  | .rrDec => 0x02
  | .rrBuild => 0x03
  | .tlmEnc => 0x04
  | .tlmDec => 0x05
  | .fmtLookup => 0x06
  | .valDec => 0x07
  | .valEnc => 0x08
  | .tmrInit => 0x10
  | .tmrCheck => 0x11
  | .tmrReset => 0x12
  | .vec2New => 0x18
  | .noOp s => pack0 0 s
  | .read s => pack0 1 s
  | .write s => pack0 2 s
  | .store s => pack0 3 s
  | .reserved s op => pack0 op s
  | .signedShort16 => 0
  | .unsignedShort16 => 1
  | .float32 => 2
  | .bool8 => 3

/-! ### The table read as one list of words -/

/-- The instruction of a word of the opcode table. A word given fewer than 8 bits is a format code, the one format
of 2 bits. An 8-bit word is looked up in the table's own order: a command code first, otherwise a byte 0 of a
request/reply frame (log 8: the rows share words). -/
def decodeTableWord (nbits w : Nat) : Option Instr :=
  if nbits < 8 then
    if w < 4 then some (decodeFormat (BitVec.ofNat 2 w)) else none
  else if w < 256 then
    match decode .cmd8 (BitVec.ofNat 8 w) with
    | .ok i => some i
    | .error _ => some (decodeByte0 (BitVec.ofNat 8 w))
  else none

end Sys2Proof
end

