-- ==== Sys2Proof/Machine/RequestReply.lean ====
section
/-! DEFINITION. The request/reply codec (40_request_reply.md): RR_ENC, RR_DEC, RR_BUILD, and the five rows of
operation codes a frame's byte 0 carries. -/

namespace Sys2Proof.Machine

/-! ### Encoding -/

/-- Byte `j` of the frame that `OP`, `SUCC`, `VID` and `PAY` describe, with `RR_PAD_LEN = P`: byte 0, the value id at
1 and 2, the pad 0x00 at 3 when `P` = 1, the payload from `3 + P`, and 0x00 after the frame (40_request_reply.md R112,
30_encoding.md R81, R85). -/
def frameByte (P : Nat) (o : Operands) (j : Nat) : Byte :=
  if j = 0 then pack0 (unpackOp o.op) o.succ
  else if j = 1 then byteOf o.vid 0
  else if j = 2 then byteOf o.vid 1
  else if h : 3 + P ≤ j ∧ j < 7 + P then o.pay.get ⟨j - (3 + P), by omega⟩
  else 0

/-- Group `OUT` as RR_ENC and RR_BUILD write it (40_request_reply.md R112). -/
def rrFrame (s : State) : OutGroup where
  buf := Vector.ofFn fun j : Fin 8 => frameByte s.params.rrPadLen.val s.ops j.val
  len := BitVec.ofNat 8 (rrLen s.params)

/-- The one check of the encoders: `OP` must fit the low 7 bits (60_exceptions.md R192). -/
def opTooWide (s : State) : Bool := decide (128 ≤ s.ops.op.toNat)

/-- RR_ENC (40_request_reply.md R112). -/
def execRrEnc (s : State) : Result :=
  if opTooWide s then raise .invalidOperation [.out] s
  else succeed { s.res with out := some (rrFrame s) } s

/-- The frame address: `REQ_BASE` for a request, `REP_BASE` for a reply, OR-ed with `NODE` (30_encoding.md R94). -/
def frameAddress (s : State) : Word :=
  (if s.ops.dir then s.params.repBase else s.params.reqBase) ||| s.ops.node

/-- RR_BUILD (40_request_reply.md R118). -/
def execRrBuild (s : State) : Result :=
  if opTooWide s then raise .invalidOperation [.addr, .out] s
  else succeed { s.res with addr := some (frameAddress s), out := some (rrFrame s) } s

/-! ### Decoding -/

/-- The class of an operation code (40_request_reply.md R111). -/
def opclass (op : BitVec 7) : BitVec 3 :=
  if op.toNat < 4 then op.setWidth 3 else 4

/-- `R_PAY[i]` of the frame in `IN_BUF`: the byte at `3 + RR_PAD_LEN + i` (40_request_reply.md R115). -/
def framePayload (s : State) : Vector Byte 4 :=
  Vector.ofFn fun i : Fin 4 => inByte s ⟨3 + s.params.rrPadLen.val + i.val, by omega⟩

/-- The message of the frame in `IN_BUF` with the operation, flag and class of its byte 0 as given: value id at 1 and
2, payload after the pad, stamped with the current time (40_request_reply.md R115, R116). -/
def message (op : BitVec 7) (success : Bool) (cls : BitVec 3) (s : State) : RrGroup where
  op := op
  succ := success
  cls := cls
  vid := inHalf s 1
  pay := framePayload s
  ts := now s

/-- The decoder's step for a byte 0 already unpacked: the length check, then the message (40_request_reply.md R115). -/
def deliver (op : BitVec 7) (success : Bool) (cls : BitVec 3) (s : State) : Result :=
  if lengthIs (rrLen s.params) s then
    succeed { s.res with rr := some (message op success cls s) } s
  else raise .malformedPacket [.rr] s

/-- RR_DEC (40_request_reply.md R115): byte 0 is unpacked from `IN_BUF[0]`. -/
def execRrDec (s : State) : Result :=
  deliver (unpackOp (inByte s 0)) (unpackSuccess (inByte s 0)) (opclass (unpackOp (inByte s 0))) s

/-! ### The operation codes

A row of format RR_BYTE0 run as an instruction is what the block does with a received frame whose byte 0 is that row:
"RR_DEC extracts it and reports its class" (40_request_reply.md, before R121). The block performs no action on the
value id (log 6). -/

/-- `NoOp`, code 0, class 0 (40_request_reply.md R121). -/
def execNoOp (success : Bool) (s : State) : Result := deliver 0 success 0 s

/-- `Read`, code 1, class 1 (40_request_reply.md R122). -/
def execRead (success : Bool) (s : State) : Result := deliver 1 success 1 s

/-- `Write`, code 2, class 2 (40_request_reply.md R123). -/
def execWrite (success : Bool) (s : State) : Result := deliver 2 success 2 s

/-- `Store`, code 3, class 3 (40_request_reply.md R124). -/
def execStore (success : Bool) (s : State) : Result := deliver 3 success 3 s

/-- A reserved code, 4 to 127: carried as it is, class 4 (40_request_reply.md R125). -/
def execReserved (success : Bool) (operation : BitVec 7) (s : State) : Result := deliver operation success 4 s

end Sys2Proof.Machine
end

