-- ==== Sys2Proof/Machine/Telemetry.lean ====
section
/-! DEFINITION. The telemetry codec (41_telemetry.md): TLM_ENC and TLM_DEC. -/

namespace Sys2Proof.Machine

/-- Group `OUT` as TLM_ENC writes it: channel `k` at bytes `2k` and `2k+1`, little-endian (41_telemetry.md R141,
30_encoding.md R87). -/
def telemetryFrame (s : State) : OutGroup where
  buf := Vector.ofFn fun j : Fin 8 => byteOf (s.ops.rpmIn.get ⟨j.val / 2, by omega⟩) (j.val % 2)
  len := BitVec.ofNat 8 Config.tlmLen

/-- All four channels are in range; the check precedes every write (41_telemetry.md R141). -/
def rpmInRange (s : State) : Bool := s.ops.rpmIn.toList.all fitsSigned16

/-- TLM_ENC (41_telemetry.md R141): refused when a channel is out of range, never wrapped (R142). -/
def execTlmEnc (s : State) : Result :=
  if rpmInRange s then succeed { s.res with out := some (telemetryFrame s) } s
  else raise .valueOutOfRange [.out] s

/-- The message of the frame in `IN_BUF`: channel `k` is `le16(IN_BUF, 2k)`, stamped with the current time
(41_telemetry.md R144, R145). -/
def telemetryMessage (s : State) : TlmGroup where
  rpm := Vector.ofFn fun k : Fin 4 => inHalf s ⟨2 * k.val, by omega⟩
  ts := now s

/-- TLM_DEC (41_telemetry.md R144). -/
def execTlmDec (s : State) : Result :=
  if lengthIs Config.tlmLen s then succeed { s.res with tlm := some (telemetryMessage s) } s
  else raise .malformedPacket [.tlm] s

end Sys2Proof.Machine
end

