-- ==== Sys2Proof/Machine/ValueRegistry.lean ====
section
/-! DEFINITION. The value registry and the value payloads (42_value_registry.md): FMT_LOOKUP, VAL_DEC, VAL_ENC, and the
four rows of wire formats a registry entry names. -/

namespace Sys2Proof.Machine

/-- FMT_LOOKUP (42_value_registry.md R156). -/
def execFmtLookup (s : State) : Result :=
  .next (match vidFormat s with
    | none => raised .unregisteredValueId [.fmt] s
    | some f => finish 0 false { s with res := { s.res with fmt := some f.code } })

/-! ### Decoding a payload -/

/-- `SignedShort16`: bytes 0 and 1, sign-extended; bytes 2 and 3 are pad (30_encoding.md R89, R93). -/
def signedShortValue (s : State) : Word := (inHalf s 0).signExtend 32

/-- `UnsignedShort16`: bytes 0 and 1, zero-extended; bytes 2 and 3 are pad (30_encoding.md R90, R93). -/
def unsignedShortValue (s : State) : Word := (inHalf s 0).setWidth 32

/-- `Float32`: the 32 bits of bytes 0 to 3, moved and never computed with (30_encoding.md R91, R93). -/
def floatValue (s : State) : Word := inWord0 s

/-- `Bool8`: 1 when byte 0 is not 0x00; bytes 1 to 3 are pad (30_encoding.md R92, R93). -/
def boolValue (s : State) : Word := if inByte s 0 = 0 then 0 else 1

/-- The value of the payload in `IN_BUF[0..3]` under a format (42_value_registry.md R160). -/
def payloadValue (f : WireFormat) (s : State) : Word :=
  match f with
  | .signedShort16 => signedShortValue s
  | .unsignedShort16 => unsignedShortValue s
  | .float32 => floatValue s
  | .bool8 => boolValue s

/-- The state VAL_DEC leaves for a tag and a value (42_value_registry.md R160, R163). -/
def tagged (fmt : BitVec 2) (value : Word) (s : State) : State :=
  finish 0 false { s with res := { s.res with val := some ⟨fmt, value⟩ } }

/-- VAL_DEC (42_value_registry.md R160): length first, registry second, reinterpretation last (R159). -/
def execValDec (s : State) : Result :=
  .next (if lengthIs Config.payLen s then
      match vidFormat s with
      | none => raised .unregisteredValueId [.val] s
      | some f => tagged f.code (payloadValue f s) s
    else raised .invalidPayloadLength [.val] s)

/-! ### The wire formats

A row of format VALFMT run as an instruction is what the block does with the payload in `IN_BUF[0..3]` when the
registry entry of `VID` is that row: the row's case of VAL_DEC (log 7). -/

/-- The case of VAL_DEC for a format found in the registry: the length check, then the tagged value. -/
def interpret (fmt : BitVec 2) (value : Word) (s : State) : Result :=
  if lengthIs Config.payLen s then .next (tagged fmt value s)
  else raise .invalidPayloadLength [.val] s

/-- `SignedShort16`, code 0 (30_encoding.md R89). -/
def execSignedShort16 (s : State) : Result := interpret 0 (signedShortValue s) s

/-- `UnsignedShort16`, code 1 (30_encoding.md R90). -/
def execUnsignedShort16 (s : State) : Result := interpret 1 (unsignedShortValue s) s

/-- `Float32`, code 2 (30_encoding.md R91). -/
def execFloat32 (s : State) : Result := interpret 2 (floatValue s) s

/-- `Bool8`, code 3 (30_encoding.md R92). -/
def execBool8 (s : State) : Result := interpret 3 (boolValue s) s

/-! ### Encoding a value -/

/-- Whether `VAL_IN` fits the format: shorts are refused when they do not fit, never wrapped; `Float32` and `Bool8`
always fit (42_value_registry.md R165, R166). -/
def valueFits (f : WireFormat) (v : Word) : Bool :=
  match f with
  | .signedShort16 => fitsSigned16 v
  | .unsignedShort16 => fitsUnsigned16 v
  | .float32 => true
  | .bool8 => true

/-- Byte `j` of the payload of `VAL_IN` under a format: the value bytes, then pad bytes 0x00 (42_value_registry.md
R165, 30_encoding.md R85). -/
def payloadByte (f : WireFormat) (v : Word) (j : Nat) : Byte :=
  match f with
  | .bool8 => if j = 0 then (if v = 0 then 0x00 else 0x01) else 0
  | .signedShort16 | .unsignedShort16 | .float32 => if j < f.width then byteOf v j else 0

/-- Group `OUT` as VAL_ENC writes it: 4 payload bytes, the rest of `OUT_BUF` 0x00 (42_value_registry.md R165). -/
def payloadFrame (f : WireFormat) (v : Word) : OutGroup where
  buf := Vector.ofFn fun j : Fin 8 => payloadByte f v j.val
  len := BitVec.ofNat 8 Config.payLen

/-- VAL_ENC where it exists (42_value_registry.md R165): registry first, range second (60_exceptions.md R199). -/
def valEncPresent (s : State) : Result :=
  .next (match vidFormat s with
    | none => raised .unregisteredValueId [.out] s
    | some f =>
      if valueFits f s.ops.valIn then
        finish 0 false { s with res := { s.res with out := some (payloadFrame f s.ops.valIn) } }
      else raised .valueOutOfRange [.out] s)

/-- VAL_ENC (42_value_registry.md R165), an illegal command without `HAS_VAL_ENC` (30_encoding.md R96). -/
def execValEnc (s : State) : Result := ifPresent s.params.hasValEnc valEncPresent s

/-! ### Building the ROM -/

/-- What the tool that builds the registry ROM does with a table of names (70_reset_and_hazards.md R243,
42_value_registry.md R158): it reports an id that an earlier row already has, with the names of both rows, instead of
letting one entry replace the other (log 22). -/
def buildRom : List (String × Half × WireFormat) → Except (String × String × Half) Registry
  | [] => .ok []
  | (name, id, f) :: rest =>
    match rest.find? (fun row => decide (row.2.1 = id)) with
    | some other => .error (name, other.1, id)
    | none => (buildRom rest).map fun rom => (id, f) :: rom

end Sys2Proof.Machine
end

