-- ==== Sys2Proof/Machine/Vec2.lean ====
section
/-! DEFINITION. The Vec2 companion (46_companion_vec2.md): VEC2_NEW. A component is a binary32 pattern (00_scope.md R8);
its number is compared exactly, as an integer count of 2^-149 (log 20). -/

namespace Sys2Proof.Machine

/-- The exponent field, bits 30:23 (30_encoding.md R91). -/
def floatExponent (v : Word) : Nat := (v.extractLsb' 23 8).toNat

/-- The fraction field, bits 22:0 (30_encoding.md R91). -/
def floatFraction (v : Word) : Nat := (v.extractLsb' 0 23).toNat

/-- A NaN: exponent bits all 1 and fraction bits not all 0 (46_companion_vec2.md R183). -/
def isNaN (v : Word) : Bool := decide (floatExponent v = 255 ∧ floatFraction v ≠ 0)

/-- The magnitude of a number in units of 2^-149, the smallest subnormal; an infinity stands above every finite number,
as its exponent field does. -/
def floatMagnitude (v : Word) : Nat :=
  if floatExponent v = 0 then floatFraction v
  else (2 ^ 23 + floatFraction v) * 2 ^ (floatExponent v - 1)

/-- The number in units of 2^-149: bit 31 is the sign. -/
def floatNumber (v : Word) : Int :=
  if v.getLsbD 31 then -(floatMagnitude v : Int) else floatMagnitude v

/-- The pattern of +1.0 (46_companion_vec2.md R182). -/
def floatOne : Word := 0x3F800000

/-- The pattern of -1.0 (46_companion_vec2.md R182). -/
def floatMinusOne : Word := 0xBF800000

/-- A pattern a component may show: a NaN, or a number in [-1.0, 1.0] (46_companion_vec2.md R180, R183). -/
def inClampRange (v : Word) : Bool :=
  isNaN v || decide (floatNumber floatMinusOne ≤ floatNumber v ∧ floatNumber v ≤ floatNumber floatOne)

/-- `clamp` of a number (46_companion_vec2.md R182). -/
def clampNumber (v : Word) : Word :=
  if floatNumber floatOne < floatNumber v then floatOne
  else if floatNumber v < floatNumber floatMinusOne then floatMinusOne
  else v

/-- `clamp`, with the draw that decides a NaN (46_companion_vec2.md R183, U10): any pattern that is a NaN or a number
in [-1.0, 1.0]; a draw outside that set stands for the input itself, which is in it (log 21). -/
def clamp (nanDraw v : Word) : Word :=
  if isNaN v then (if inClampRange nanDraw then nanDraw else v) else clampNumber v

/-- VEC2_NEW where the unit exists (46_companion_vec2.md R181): it always succeeds. -/
def vec2NewPresent (s : State) : Result :=
  succeed { s.res with
    vec := some ⟨clamp (Config.nanComponentX s.draw) s.ops.vxIn,
      clamp (Config.nanComponentY s.draw) s.ops.vyIn⟩ } s

/-- VEC2_NEW (46_companion_vec2.md R181). -/
def execVec2New (s : State) : Result := ifPresent s.params.hasVec2 vec2NewPresent s

end Sys2Proof.Machine
end

