-- ==== Sys2Proof/Machine/Dispatch.lean ====
section
/-! DEFINITION. One arm per row of spec/opcode_table.json. -/

namespace Sys2Proof.Machine

def exec (i : Instr) (s : State) : Host.Outcome State Fault Refusal :=
  match i with
  -- CMD8: the commands
  | .rrEnc => Sys2Proof.Machine.execRrEnc s
  | .rrDec => Sys2Proof.Machine.execRrDec s
  | .rrBuild => Sys2Proof.Machine.execRrBuild s
  | .tlmEnc => Sys2Proof.Machine.execTlmEnc s
  | .tlmDec => Sys2Proof.Machine.execTlmDec s
  | .fmtLookup => Sys2Proof.Machine.execFmtLookup s
  | .valDec => Sys2Proof.Machine.execValDec s
  | .valEnc => Sys2Proof.Machine.execValEnc s
  | .tmrInit => Sys2Proof.Machine.execTmrInit s
  | .tmrCheck => Sys2Proof.Machine.execTmrCheck s
  | .tmrReset => Sys2Proof.Machine.execTmrReset s
  | .vec2New => Sys2Proof.Machine.execVec2New s
  -- RR_BYTE0: the operation codes
  | .noOp success => Sys2Proof.Machine.execNoOp success s
  | .read success => Sys2Proof.Machine.execRead success s
  | .write success => Sys2Proof.Machine.execWrite success s
  | .store success => Sys2Proof.Machine.execStore success s
  | .reserved success operation => Sys2Proof.Machine.execReserved success operation s
  -- VALFMT: the value payload formats
  | .signedShort16 => Sys2Proof.Machine.execSignedShort16 s
  | .unsignedShort16 => Sys2Proof.Machine.execUnsignedShort16 s
  | .float32 => Sys2Proof.Machine.execFloat32 s
  | .bool8 => Sys2Proof.Machine.execBool8 s

end Sys2Proof.Machine
end

