-- ==== Sys2Proof/Machine/Operands.lean ====
section
/-! DEFINITION. The registers as the host sees them: the map of the host register space (20_memory.md R66), and reading
and writing one whole register (R67). -/

namespace Sys2Proof.Machine

/-- The registers of the host register space, an array by its elements (20_memory.md R66). -/
inductive Reg where
  | cmd | status | rvalid | inLen | op | succ | dir | vid
  | pay (i : Fin 4)
  | node | valIn
  | rpmIn (k : Fin 4)
  | inBuf (i : Fin 16)
  | outBuf (i : Fin 8)
  | outLen | rOp | rSucc | rOpcls | rVid | rFmt | rLfmt
  | rPay (i : Fin 4)
  | rVal
  | rRpm (k : Fin 4)
  | rAddr | rRrTs | rTlmTs
  | periodIn | tmrPeriod | tmrDeadline | rMissed | rFired | tmrCreated
  | vxIn | vyIn | rVx | rVy
deriving DecidableEq, Repr

/-- Every register of the map, in the order of its offsets. -/
def Reg.all : List Reg :=
  [.cmd, .status, .rvalid, .inLen, .op, .succ, .dir, .vid]
    ++ (List.finRange 4).map .pay ++ [.node, .valIn]
    ++ (List.finRange 4).map .rpmIn ++ (List.finRange 16).map .inBuf
    ++ (List.finRange 8).map .outBuf
    ++ [.outLen, .rOp, .rSucc, .rOpcls, .rVid, .rFmt, .rLfmt]
    ++ (List.finRange 4).map .rPay ++ [.rVal]
    ++ (List.finRange 4).map .rRpm ++ [.rAddr, .rRrTs, .rTlmTs]
    ++ [.periodIn, .tmrPeriod, .tmrDeadline, .rMissed, .rFired, .tmrCreated, .vxIn, .vyIn, .rVx, .rVy]

/-- The offset of a register (20_memory.md R66). -/
def Reg.offset : Reg → Nat
  | .cmd => 0x00
  | .status => 0x01
  | .rvalid => 0x02
  | .inLen => 0x03
  | .op => 0x04
  | .succ => 0x05
  | .dir => 0x06
  | .vid => 0x08
  | .pay i => 0x0C + i.val
  | .node => 0x10
  | .valIn => 0x14
  | .rpmIn k => 0x20 + 4 * k.val
  | .inBuf i => 0x30 + i.val
  | .outBuf i => 0x40 + i.val
  | .outLen => 0x48
  | .rOp => 0x49
  | .rSucc => 0x4A
  | .rOpcls => 0x4B
  | .rVid => 0x4C
  | .rFmt => 0x4E
  | .rLfmt => 0x4F
  | .rPay i => 0x50 + i.val
  | .rVal => 0x54
  | .rRpm k => 0x58 + 2 * k.val
  | .rAddr => 0x60
  | .rRrTs => 0x68
  | .rTlmTs => 0x70
  | .periodIn => 0x80
  | .tmrPeriod => 0x88
  | .tmrDeadline => 0x90
  | .rMissed => 0x98
  | .rFired => 0xA0
  | .tmrCreated => 0xA1
  | .vxIn => 0xA8
  | .vyIn => 0xAC
  | .rVx => 0xB0
  | .rVy => 0xB4

/-- The width of a register in bits (10_state.md sections 2 to 6): bits of its bytes above this width read 0 and are
ignored on a write (20_memory.md R66). -/
def Reg.bits : Reg → Nat
  | .succ | .dir | .rSucc | .rFired | .tmrCreated => 1
  | .rFmt | .rLfmt => 2
  | .rOpcls => 3
  | .rOp => 7
  | .cmd | .status | .rvalid | .inLen | .op | .pay _ | .inBuf _ | .outBuf _ | .outLen | .rPay _ => 8
  | .vid | .rVid | .rRpm _ => 16
  | .node | .valIn | .rpmIn _ | .rVal | .rAddr | .vxIn | .vyIn | .rVx | .rVy => 32
  | .rRrTs | .rTlmTs | .periodIn | .tmrPeriod | .tmrDeadline | .rMissed => 64

/-- The bytes a register takes in the map (20_memory.md R66). -/
def Reg.size (r : Reg) : Nat := (r.bits + 7) / 8

/-- Whether a register exists in a build (10_state.md R29, R45, R46; log 13). -/
def Reg.existsIn (p : Params) : Reg → Bool
  | .valIn => p.hasValEnc
  | .periodIn | .tmrPeriod | .tmrDeadline | .rMissed | .rFired | .tmrCreated => p.hasTimer
  | .vxIn | .vyIn | .rVx | .rVy => p.hasVec2
  | .cmd | .status | .rvalid | .inLen | .op | .succ | .dir | .vid | .pay _ | .node
  | .rpmIn _ | .inBuf _ | .outBuf _ | .outLen | .rOp | .rSucc | .rOpcls | .rVid | .rFmt | .rLfmt
  | .rPay _ | .rVal | .rRpm _ | .rAddr | .rRrTs | .rTlmTs => true

/-- What stands at an access of `size` bytes at `offset` (20_memory.md R66, R67). -/
inductive Target where
  /-- Exactly one whole register. -/
  | whole (r : Reg)
  /-- Reserved bytes only: they read 0 and ignore writes. -/
  | reservedBytes
  /-- Part of a register, or more than one: not defined by the spec. -/
  | notWhole
deriving DecidableEq, Repr

/-- Whether a register shares a byte with an access. -/
def Reg.overlaps (r : Reg) (offset size : Nat) : Bool :=
  decide (r.offset < offset + size ∧ offset < r.offset + r.size)

/-- What an access meets in a build (20_memory.md R67; log 14). -/
def target (p : Params) (offset size : Nat) : Target :=
  match Reg.all.filter fun r => r.existsIn p && r.overlaps offset size with
  | [] => if size = 0 then .notWhole else .reservedBytes
  | [r] => if r.offset = offset ∧ r.size = size then .whole r else .notWhole
  | _ => .notWhole

/-! ### Reading a register -/

/-- What a read of a register that holds no value returns: a free value, the same until a command completes or a reset
is applied (10_state.md R36, 20_memory.md R67; log 5). -/
def unspecified (r : Reg) (s : State) : BitVec 64 := Config.unspecifiedBits s.draw r.offset

/-- The value of a register of a group that may be absent. -/
def fromGroup {α : Type} (r : Reg) (group : Option α) (value : α → BitVec 64) (s : State) : BitVec 64 :=
  match group with
  | some g => value g
  | none => unspecified r s

/-- The value of a register before it is cut to its width. -/
def rawValue (r : Reg) (s : State) : BitVec 64 :=
  match r with
  | .cmd => s.cmd.setWidth 64
  | .status => s.status.setWidth 64
  | .rvalid => s.res.rvalid.setWidth 64
  | .inLen => s.ops.inLen.setWidth 64
  | .op => s.ops.op.setWidth 64
  | .succ => (BitVec.ofBool s.ops.succ).setWidth 64
  | .dir => (BitVec.ofBool s.ops.dir).setWidth 64
  | .vid => s.ops.vid.setWidth 64
  | .pay i => (s.ops.pay.get i).setWidth 64
  | .node => s.ops.node.setWidth 64
  | .valIn => s.ops.valIn.setWidth 64
  | .rpmIn k => (s.ops.rpmIn.get k).setWidth 64
  | .inBuf i => (s.ops.inBuf.get i).setWidth 64
  | .outBuf i => fromGroup (.outBuf i) s.res.out (fun g => (g.buf.get i).setWidth 64) s
  | .outLen => fromGroup .outLen s.res.out (fun g => g.len.setWidth 64) s
  | .rOp => fromGroup .rOp s.res.rr (fun g => g.op.setWidth 64) s
  | .rSucc => fromGroup .rSucc s.res.rr (fun g => (BitVec.ofBool g.succ).setWidth 64) s
  | .rOpcls => fromGroup .rOpcls s.res.rr (fun g => g.cls.setWidth 64) s
  | .rVid => fromGroup .rVid s.res.rr (fun g => g.vid.setWidth 64) s
  | .rFmt => fromGroup .rFmt s.res.val (fun g => g.fmt.setWidth 64) s
  | .rLfmt => fromGroup .rLfmt s.res.fmt (fun g => g.setWidth 64) s
  | .rPay i => fromGroup (.rPay i) s.res.rr (fun g => (g.pay.get i).setWidth 64) s
  | .rVal => fromGroup .rVal s.res.val (fun g => g.val.setWidth 64) s
  | .rRpm k => fromGroup (.rRpm k) s.res.tlm (fun g => (g.rpm.get k).setWidth 64) s
  | .rAddr => fromGroup .rAddr s.res.addr (fun g => g.setWidth 64) s
  | .rRrTs => fromGroup .rRrTs s.res.rr (fun g => g.ts) s
  | .rTlmTs => fromGroup .rTlmTs s.res.tlm (fun g => g.ts) s
  | .periodIn => s.ops.periodIn
  | .tmrPeriod => fromGroup .tmrPeriod s.timer (fun t => t.period) s
  | .tmrDeadline => fromGroup .tmrDeadline s.timer (fun t => t.deadline) s
  | .rMissed => fromGroup .rMissed s.res.tmr (fun g => g.missed) s
  | .rFired => fromGroup .rFired s.res.tmr (fun g => (BitVec.ofBool g.fired).setWidth 64) s
  | .tmrCreated => (BitVec.ofBool s.timer.isSome).setWidth 64
  | .vxIn => s.ops.vxIn.setWidth 64
  | .vyIn => s.ops.vyIn.setWidth 64
  | .rVx => fromGroup .rVx s.res.vec (fun g => g.x.setWidth 64) s
  | .rVy => fromGroup .rVy s.res.vec (fun g => g.y.setWidth 64) s

/-- A host read of a register: its value, bits above its width 0 (20_memory.md R66). -/
def readReg (r : Reg) (s : State) : BitVec 64 := ((rawValue r s).setWidth r.bits).setWidth 64

/-! ### Writing a register -/

/-- The operand registers after a host write of a value: the register takes the low bits of its width; a read-only
register ignores the write (10_state.md R21, 20_memory.md R66). -/
def writeOperand (r : Reg) (v : BitVec 64) (o : Operands) : Operands :=
  match r with
  | .inLen => { o with inLen := v.setWidth 8 }
  | .op => { o with op := v.setWidth 8 }
  | .succ => { o with succ := v.getLsbD 0 }
  | .dir => { o with dir := v.getLsbD 0 }
  | .vid => { o with vid := v.setWidth 16 }
  | .pay i => { o with pay := o.pay.set i.val (v.setWidth 8) i.isLt }
  | .node => { o with node := v.setWidth 32 }
  | .valIn => { o with valIn := v.setWidth 32 }
  | .rpmIn k => { o with rpmIn := o.rpmIn.set k.val (v.setWidth 32) k.isLt }
  | .inBuf i => { o with inBuf := o.inBuf.set i.val (v.setWidth 8) i.isLt }
  | .periodIn => { o with periodIn := v }
  | .vxIn => { o with vxIn := v.setWidth 32 }
  | .vyIn => { o with vyIn := v.setWidth 32 }
  | .cmd | .status | .rvalid | .outBuf _ | .outLen | .rOp | .rSucc | .rOpcls | .rVid | .rFmt | .rLfmt
  | .rPay _ | .rVal | .rRpm _ | .rAddr | .rRrTs | .rTlmTs | .tmrPeriod | .tmrDeadline | .rMissed
  | .rFired | .tmrCreated | .rVx | .rVy => o

/-- A register the host can write as an operand: access `RW` in the map (20_memory.md R66). -/
def Reg.writable : Reg → Bool
  | .inLen | .op | .succ | .dir | .vid | .pay _ | .node | .valIn | .rpmIn _ | .inBuf _ | .periodIn
  | .vxIn | .vyIn => true
  | .cmd | .status | .rvalid | .outBuf _ | .outLen | .rOp | .rSucc | .rOpcls | .rVid | .rFmt | .rLfmt
  | .rPay _ | .rVal | .rRpm _ | .rAddr | .rRrTs | .rTlmTs | .tmrPeriod | .tmrDeadline | .rMissed
  | .rFired | .tmrCreated | .rVx | .rVy => false

/-- A host write of a register other than `CMD`. -/
def writeReg (r : Reg) (v : BitVec 64) (s : State) : State := { s with ops := writeOperand r v s.ops }

end Sys2Proof.Machine
end

