-- ==== Sys2Proof/Machine/HostPort.lean ====
section
/-! DEFINITION. Serving one access of the outside world: a command issued by a write of `CMD` (10_state.md R33,
70_reset_and_hazards.md R238), register reads and writes (20_memory.md R66, R67), reset (R230), time (10_state.md R44). -/

namespace Sys2Proof.Machine

/-- A write of `CMD`: the register takes the code, and the command the code selects runs to completion in the same
step; a code that selects none is an illegal command (10_state.md R33, 30_encoding.md R95, R96). -/
def issue (code : Byte) (s : State) : Result :=
  match decode .cmd8 code with
  | .ok i => exec i { s with cmd := code }
  | .error _ => illegalCommand { s with cmd := code }

/-- A host write of one whole register (10_state.md R21). -/
def hostWrite (r : Reg) (v : BitVec 64) (s : State) : Result :=
  match r with
  | .cmd => issue (v.setWidth 8) s
  | _ => .next (writeReg r v s)

/-- Whether an access must wait for completion: while `STATUS.BUSY` is 1 the host may read `STATUS` and nothing else
(70_reset_and_hazards.md R239; log 15). -/
def forbiddenWhileBusy (s : State) (allowed : Bool) : Bool := statusBusy s.status && !allowed

/-- A host read of `size` bytes at `offset` (20_memory.md R66, R67): nothing changes but what the read returns. -/
def serveRead (offset size : Nat) (s : State) : Result :=
  if Config.spaceSize < offset + size then .fault .outsideRegisterSpace
  else
    match target s.params offset size with
    | .whole r =>
      if forbiddenWhileBusy s (decide (r = .status)) then .refused .busyAccess
      else .next { s with readData := toBytes size (readReg r s) }
    | .reservedBytes =>
      if forbiddenWhileBusy s false then .refused .busyAccess
      else .next { s with readData := List.replicate size 0 }
    | .notWhole => .refused .partialAccess

/-- A host write of bytes at `offset` (20_memory.md R66, R67). -/
def serveWrite (offset : Nat) (data : List Byte) (s : State) : Result :=
  if Config.spaceSize < offset + data.length then .fault .outsideRegisterSpace
  else
    match target s.params offset data.length with
    | .whole r =>
      if forbiddenWhileBusy s false then .refused .busyAccess
      else hostWrite r (ofBytes data) s
    | .reservedBytes =>
      if forbiddenWhileBusy s false then .refused .busyAccess
      else .next s
    | .notWhole => .refused .partialAccess

/-- One access of the outside world (10_state.md R20). -/
def serve (a : HostAccess) (s : State) : Result :=
  match a with
  | .write offset data => serveWrite offset data s
  | .read offset size => serveRead offset size s
  | .reset => .next (applyReset s)
  | .time t => .next (advanceTime t s)

/-! ### Placing an instruction where the next step runs it -/

/-- The next access is the host's write of a command code; no command is in progress. -/
def placeCommand (code : Byte) (s : State) : State :=
  { s with
    status := s.status &&& 0xBF
    inbox := .write Reg.cmd.offset [code] :: s.inbox }

/-- A frame whose byte 0 is `b` stands in `IN_BUF` at its full length, and the next access issues RR_DEC
(40_request_reply.md R115): where an operation code is met. -/
def placeByte0 (b : Byte) (s : State) : State :=
  placeCommand (encode .rrDec)
    { s with ops := { s.ops with inBuf := s.ops.inBuf.set 0 b, inLen := BitVec.ofNat 8 (rrLen s.params) } }

/-- The registry entry of `VID` is the format, a payload of 4 bytes stands in `IN_BUF`, and the next access issues
VAL_DEC (42_value_registry.md R160): where a format code is met. -/
def placeFormat (f : WireFormat) (s : State) : State :=
  placeCommand (encode .valDec)
    { s with
      params := { s.params with registry := (s.ops.vid, f) :: s.params.registry }
      ops := { s.ops with inLen := BitVec.ofNat 8 Config.payLen } }

/-- The word of the opcode table placed so that the very next step runs the instruction `decodeTableWord` reads from
it; a word that is no row of the table is written to `CMD` as it is (log 9). -/
def placeTableWord (nbits w : Nat) (s : State) : State :=
  match decodeTableWord nbits w with
  | none => placeCommand (BitVec.ofNat 8 w) s
  | some i =>
    match i.format with
    | .cmd8 => placeCommand (encode i) s
    | .rrByte0 => placeByte0 (encode i) s
    | .valFmt => placeFormat (WireFormat.ofCode ((encode i).setWidth 2)) s

end Sys2Proof.Machine
end

