-- ==== Sys2Proof/Machine/HostProgram.lean ====
section
/-! DEFINITION. Host programs (30_encoding.md R101): lines of the host notation, the register accesses they make, the
pseudo-instructions (R102), and a run of a program. The host is outside the block (10_state.md R20); nothing in `step`
uses this file. What R101 and R102 leave open is settled here as DESIGN CHOICES of the model (logs 3 and 23): how time
moves during a run, values and byte strings wider than their register or array, registers of absent units. -/

namespace Sys2Proof.Machine

/-- A line of a host program (30_encoding.md R101); a comment is no line. -/
inductive HostLine where
  /-- `WR <reg>, <value>`; an array is written element by element. Of a value wider than the register's bytes the low
  bytes are written (DESIGN CHOICE, log 23). -/
  | wr (r : Reg) (value : BitVec 64)
  /-- `CMD <mnemonic>`. -/
  | cmd (i : Instr)
  /-- `RD <reg>`. -/
  | rd (r : Reg)
  /-- `CP <dst>, <src>`; an array is copied element by element. -/
  | cp (dst src : Reg)
  /-- `IF <cond> GOTO <label>`: the condition compares the masked value of a register with a number, for equality or,
  when `equal` is false, for inequality. -/
  | ifGoto (r : Reg) (mask value : BitVec 64) (equal : Bool) (label : String)
  /-- `<label>:`. -/
  | label (name : String)
deriving DecidableEq, Repr

/-- What a host read of a whole register returns as a number: the register's value, and 0 for a register of an absent
unit, whose bytes are reserved (20_memory.md R66; logs 13 and 23). -/
def hostRead (r : Reg) (s : State) : BitVec 64 := if r.existsIn s.params then readReg r s else 0

/-- The register accesses a line makes (30_encoding.md R101): `CP` reads the source, then writes what it read, the low
bytes of it where the destination is narrower (DESIGN CHOICE, log 23). -/
def HostLine.accesses (l : HostLine) (s : State) : List HostAccess :=
  match l with
  | .wr r v => [.write r.offset (toBytes r.size v)]
  | .cmd i => [.write Reg.cmd.offset [encode i]]
  | .rd r => [.read r.offset r.size]
  | .cp dst src => [.read src.offset src.size, .write dst.offset (toBytes dst.size (hostRead src s))]
  | .ifGoto _ _ _ _ _ => []
  | .label _ => []

/-- Accesses served one after the other (20_memory.md R71). -/
def serveAll : List HostAccess → State → Result
  | [], s => .next s
  | a :: rest, s =>
    match serve a s with
    | .next s' => serveAll rest s'
    | .fault r => .fault r
    | .refused r => .refused r

/-- The line a program goes on with: host-side control flow on a value just read (30_encoding.md R101), here the value
a host read returns at this line. Where two lines carry the label the first of them is meant, and a label the program
lacks ends it: R101 is silent on both (DESIGN CHOICES, log 23). -/
def HostLine.successor (program : List HostLine) (at_ : Nat) (l : HostLine) (s : State) : Nat :=
  match l with
  | .ifGoto r mask value equal name =>
    if decide (hostRead r s &&& mask = value) = equal then program.idxOf (.label name) else at_ + 1
  | .wr _ _ | .cmd _ | .rd _ | .cp _ _ | .label _ => at_ + 1

/-- A host program from a line on, one line for each entry of `times`: the tick count to which the time source moves
before that line. R101 is silent on the time while a program runs; R44 makes each `now()` a free draw that never
decreases, so the run takes the moves as an argument, at most one command to a line, and a move to an earlier count is
none. The accesses are the lines' alone: `inbox` is neither served nor changed (DESIGN CHOICES, logs 3 and 23). A run
ends with the list, or after the program's last line. -/
def runProgram (program : List HostLine) : List Tick → Nat → State → Result
  | [], _, s => .next s
  | time :: times, at_, s =>
    match program[at_]? with
    | none => .next s
    | some l =>
      match serveAll (.time time :: l.accesses s) s with
      | .next s' => runProgram program times (l.successor program at_ s') s'
      | .fault r => .fault r
      | .refused r => .refused r

/-! ### Arrays -/

/-- `WR` of a byte array: index 0 first, bytes not given keep their value (30_encoding.md R101). The rule is silent on a
byte string longer than the array: the bytes beyond its last element are written nowhere (DESIGN CHOICE, log 23). -/
def wrBytes (elements : List Reg) (bytes : List Byte) : List HostLine :=
  List.zipWith (fun r b => .wr r (b.setWidth 64)) elements bytes

/-- `CP` of an array, element by element. -/
def cpArray (dst src : List Reg) : List HostLine := List.zipWith .cp dst src

/-- `PAY[0..3]`. -/
def payRegs : List Reg := (List.finRange 4).map .pay

/-- `IN_BUF[0..15]`. -/
def inBufRegs : List Reg := (List.finRange 16).map .inBuf

/-- `OUT_BUF[0..7]`. -/
def outBufRegs : List Reg := (List.finRange 8).map .outBuf

/-- `R_PAY[0..3]`. -/
def rPayRegs : List Reg := (List.finRange 4).map .rPay

/-! ### Pseudo-instructions (30_encoding.md R102) -/

/-- `RR_REQUEST node, op, vid, b0 b1 b2 b3`; bytes beyond the fourth are dropped (`wrBytes`, log 23). -/
def rrRequest (node : Word) (op : Byte) (vid : Half) (payload : List Byte) : List HostLine :=
  [.wr .dir 0, .wr .succ 0, .wr .node (node.setWidth 64), .wr .op (op.setWidth 64), .wr .vid (vid.setWidth 64)]
    ++ wrBytes payRegs payload ++ [.cmd .rrBuild]

/-- `RR_REPLY node, op, succ, vid, b0 b1 b2 b3`; bytes beyond the fourth are dropped (`wrBytes`, log 23). -/
def rrReply (node : Word) (op : Byte) (succ : Bool) (vid : Half) (payload : List Byte) : List HostLine :=
  [.wr .dir 1, .wr .succ ((BitVec.ofBool succ).setWidth 64), .wr .node (node.setWidth 64), .wr .op (op.setWidth 64),
      .wr .vid (vid.setWidth 64)]
    ++ wrBytes payRegs payload ++ [.cmd .rrBuild]

/-- `LOAD_FRAME n, b0 ... b(n-1)`. The rule is silent on `n` above the 16 bytes of `IN_BUF`: the bytes beyond are
dropped (`wrBytes`), and `IN_LEN` is still written with `n`, in its 8 bits (DESIGN CHOICE, log 23). -/
def loadFrame (bytes : List Byte) : List HostLine :=
  wrBytes inBufRegs bytes ++ [.wr .inLen (BitVec.ofNat 64 bytes.length)]

/-- `DECODE_VALUE`, after a successful RR_DEC. -/
def decodeValue : List HostLine :=
  [.cp .vid .rVid] ++ cpArray inBufRegs rPayRegs ++ [.wr .inLen 4, .cmd .valDec]

/-- `LOOPBACK`, after a successful encoder. -/
def loopback : List HostLine := cpArray inBufRegs outBufRegs ++ [.cp .inLen .outLen]

end Sys2Proof.Machine
end

