-- ==== Sys2Proof/Safety.lean ====
section
/-! DEFINITION. What claims are stated in: the groups a command owns, what a command leaves alone, and the invariant of
a block that has run from reset. -/

namespace Sys2Proof.Machine

/-- The result groups a row's command writes (10_state.md R36): the rows of byte 0 are RR_DEC's, the rows of formats
VAL_DEC's. -/
def ownedGroups : Instr → List Group
  | .rrEnc | .tlmEnc | .valEnc => [.out]
  | .rrDec | .noOp _ | .read _ | .write _ | .store _ | .reserved _ _ => [.rr]
  | .rrBuild => [.addr, .out]
  | .tlmDec => [.tlm]
  | .fmtLookup => [.fmt]
  | .valDec | .signedShort16 | .unsignedShort16 | .float32 | .bool8 => [.val]
  | .tmrInit | .tmrReset => []
  | .tmrCheck => [.tmr]
  | .vec2New => [.vec]

/-- Whether the unit of a row exists in a build (30_encoding.md R95). -/
def unitPresent (p : Params) : Instr → Bool
  | .valEnc => p.hasValEnc
  | .tmrInit | .tmrCheck | .tmrReset => p.hasTimer
  | .vec2New => p.hasVec2
  | .rrEnc | .rrDec | .rrBuild | .tlmEnc | .tlmDec | .fmtLookup | .valDec
  | .noOp _ | .read _ | .write _ | .store _ | .reserved _ _
  | .signedShort16 | .unsignedShort16 | .float32 | .bool8 => true

/-- What no command writes: the build, the operand registers, `CMD`, the time input, the host's side (10_state.md R20
(b), R21). -/
structure HostSideKept (s t : State) : Prop where
  params : t.params = s.params
  ops : t.ops = s.ops
  cmd : t.cmd = s.cmd
  now : t.now = s.now
  inbox : t.inbox = s.inbox
  readData : t.readData = s.readData

/-- The registers of one group are the same in two states, and so is their valid bit. -/
def sameGroup (s t : State) : Group → Prop
  | .out => t.res.out = s.res.out
  | .rr => t.res.rr = s.res.rr
  | .tlm => t.res.tlm = s.res.tlm
  | .val => t.res.val = s.res.val
  | .addr => t.res.addr = s.res.addr
  | .tmr => t.res.tmr = s.res.tmr
  | .vec => t.res.vec = s.res.vec
  | .fmt => t.res.fmt = s.res.fmt

/-- The status register of a block between commands (10_state.md R34): bit 5 reads 0, no command is in progress, the
error code is one of 60_exceptions.md R191, and a catch-up is no error (60_exceptions.md R202). -/
structure StatusOk (status : Byte) : Prop where
  reserved : statusReserved status = false
  idle : statusBusy status = false
  code : (statusErr status).toNat ≤ 6
  catchup : statusCatchup status = true → statusErr status = 0

/-- A group `OUT` that holds a value (10_state.md R37): a length an encoder produces, and 0x00 beyond it. -/
structure OutOk (g : OutGroup) : Prop where
  len : g.len = 4 ∨ g.len = 7 ∨ g.len = 8
  tail : ∀ j : Fin 8, g.len.toNat ≤ j.val → g.buf.get j = 0

/-- A group `RR` that holds a message: the class is that of the code (10_state.md R38). -/
def RrOk (g : RrGroup) : Prop := g.cls = opclass g.op

/-- A tagged value is in the range of its tag (42_value_registry.md R163). -/
structure ValOk (g : ValGroup) : Prop where
  signed : g.fmt = 0 → -32768 ≤ g.val.toInt ∧ g.val.toInt ≤ 32767
  unsigned : g.fmt = 1 → g.val.toNat ≤ 65535
  boolean : g.fmt = 3 → g.val = 0 ∨ g.val = 1

/-- A vector's components are never observed outside the clamp range (46_companion_vec2.md R180, R183). -/
structure VecOk (g : VecGroup) : Prop where
  x : inClampRange g.x = true
  y : inClampRange g.y = true

/-- The timer and its answers (60_exceptions.md R211, R213): the period is not 0, an answer needs a timer, a check that
did not fire missed nothing, and `CATCHUP` is shown with a firing that missed something (R215). -/
structure TimerOk (s : State) : Prop where
  period : ∀ t, s.timer = some t → t.period ≠ 0
  answered : s.timer = none → s.res.tmr = none
  quiet : ∀ g, s.res.tmr = some g → g.fired = false → g.missed = 0
  catchup : statusCatchup s.status = true → ∃ g, s.res.tmr = some g ∧ g.fired = true ∧ g.missed ≠ 0

/-- Units that are absent hold nothing (10_state.md R21; 93_implementation_defined.md U13). -/
structure UnitsOk (s : State) : Prop where
  timer : s.params.hasTimer = false → s.timer = none ∧ s.res.tmr = none
  vec : s.params.hasVec2 = false → s.res.vec = none

/-- Before the first command has completed nothing has been written (10_state.md R34, R49). -/
def FreshOk (s : State) : Prop :=
  statusDoneBit s.status = false → s.status = 0 ∧ s.res = .reset ∧ s.timer = none

/-- The invariant of the block: it holds at reset and every step keeps it. -/
structure Inv (s : State) : Prop where
  status : StatusOk s.status
  out : ∀ g, s.res.out = some g → OutOk g
  rr : ∀ g, s.res.rr = some g → RrOk g
  val : ∀ g, s.res.val = some g → ValOk g
  vec : ∀ g, s.res.vec = some g → VecOk g
  timer : TimerOk s
  units : UnitsOk s
  fresh : FreshOk s

end Sys2Proof.Machine
end

