-- ==== Sys2Proof/Certificates/Slice0/Obligations.lean ====
section
/-! DEFINITION. The statements for the provers. Each docstring names the rule of spec/ it states or rests on. Where a
next state is written out as an update of the state before, the update is the frame too: every field it does not name
is unchanged. `draw` is the model's own counter (log 4). -/

open Sys2Proof Sys2Proof.Machine

/-! ### Encoding -/

/-- Decoding the word of a well-formed row in the row's own format gives the row back (30_encoding.md R83, R88, R95). -/
def Obligations.DecodeOfEncodeIsTheInstruction : Prop :=
  ∀ i : Instr, i.wf = true → decode i.format (encode i) = .ok i

/-- A word a format accepts is the word of exactly the row it decodes to, and that row is well-formed and of that
format: no two rows of a format share a word (30_encoding.md R83, R88, R95). -/
def Obligations.EncodeOfDecodeIsTheWord : Prop :=
  ∀ (f : Format) (w : Byte) (i : Instr), decode f w = .ok i → i.format = f ∧ i.wf = true ∧ encode i = w

/-- Words written out from the tables of R95, R83 and R88 decode to the rows they stand for. -/
def Obligations.WordsOfTheTablesDecode : Prop :=
  decode .cmd8 0b00000001 = .ok .rrEnc ∧ decode .cmd8 0b00000101 = .ok .tlmDec
    ∧ decode .cmd8 0b00001000 = .ok .valEnc ∧ decode .cmd8 0b00010001 = .ok .tmrCheck
    ∧ decode .cmd8 0b00011000 = .ok .vec2New ∧ decode .cmd8 0b00000000 = .error (.illegalCommand 0)
    ∧ decode .rrByte0 0b10000001 = .ok (.read true) ∧ decode .rrByte0 0b00000100 = .ok (.reserved false 4)
    ∧ decode .valFmt 0b10 = .ok .float32 ∧ decode .valFmt 0b100 = .error (.notAFormatCode 4)

/-- The pair of accessors over byte 0 are inverse bijections, and byte 0 is the operation OR the flag in bit 7 (R110,
R82). -/
def Obligations.Byte0AccessorsAreInverse : Prop :=
  (∀ (op : BitVec 7) (s : Bool), unpackOp (pack0 op s) = op ∧ unpackSuccess (pack0 op s) = s
      ∧ (pack0 op s).toNat = op.toNat + (if s then 128 else 0))
    ∧ ∀ b : Byte, pack0 (unpackOp b) (unpackSuccess b) = b

/-! ### Steps -/

/-- A step in which the host writes `CMD` runs the command the code selects, on the state in which the access is
served and `CMD` holds the code (10_state.md R33, 70_reset_and_hazards.md R238). -/
def Obligations.StepRunsTheCommandWritten : Prop :=
  ∀ (s : State) (code : Byte) (i : Instr) (rest : List HostAccess),
    s.inbox = .write 0x00 [code] :: rest → statusBusy s.status = false → decode .cmd8 code = .ok i →
      step s = exec i { s with inbox := rest, cmd := code }

/-- The block takes no step on its own: with no access pending nothing changes (10_state.md R20 (b); that this is a
next state is the model's choice, log 9). -/
def Obligations.NothingPendingChangesNothing : Prop :=
  ∀ s : State, s.inbox = [] → step s = .next s

/-- A code that is no command of this build completes at once with `IllegalCommand`; nothing but `STATUS`, `CMD` and the
served access changes (30_encoding.md R96, 60_exceptions.md R195). -/
def Obligations.IllegalCodesChangeNoGroup : Prop :=
  ∀ (s : State) (code : Byte) (rest : List HostAccess),
    s.inbox = .write 0x00 [code] :: rest → statusBusy s.status = false →
    code ∉ ([0x01, 0x02, 0x03, 0x04, 0x05, 0x06, 0x07] : List Byte) →
    (s.params.hasValEnc = true → code ≠ 0x08) →
    (s.params.hasTimer = true → code ≠ 0x10 ∧ code ≠ 0x11 ∧ code ≠ 0x12) →
    (s.params.hasVec2 = true → code ≠ 0x18) →
      step s = .next { s with inbox := rest, cmd := code, status := 0x86, draw := s.draw + 1 }

/-- The word of a row placed by `withFetchWord` is run by the very next step, on the state in which it stands where its
format is met: the model's own placement (log 9). -/
def Obligations.PlacedTableWordRunsAtTheNextStep : Prop :=
  ∀ (s : State) (nbits w : Nat) (i : Instr), decodeTableWord nbits w = some i →
    step (s.withFetchWord nbits w) =
      match i.format with
      | .cmd8 => exec i { s with status := s.status &&& 0xBF, cmd := encode i }
      | .rrByte0 =>
        exec i { s with
          status := s.status &&& 0xBF
          cmd := 0x02
          ops := { s.ops with inBuf := s.ops.inBuf.set 0 (encode i), inLen := BitVec.ofNat 8 (7 + s.params.rrPadLen.val) } }
      | .valFmt =>
        exec i { s with
          status := s.status &&& 0xBF
          cmd := 0x07
          params := { s.params with
            registry := (s.ops.vid, WireFormat.ofCode ((encode i).setWidth 2)) :: s.params.registry }
          ops := { s.ops with inLen := 4 } }

/-- RR_DEC does what the row of its byte 0 does (40_request_reply.md R115, R121 to R125). -/
def Obligations.RrDecRunsTheRowOfByteZero : Prop :=
  ∀ (s : State) (i : Instr), decode .rrByte0 (s.ops.inBuf.get 0) = .ok i → exec .rrDec s = exec i s

/-- VAL_DEC does what the row of the registry entry of `VID` does (42_value_registry.md R160, 30_encoding.md R88). -/
def Obligations.ValDecRunsTheRowOfTheFormat : Prop :=
  ∀ (s : State) (f : WireFormat), Registry.formatOf s.params.registry s.ops.vid = some f →
    exec .valDec s = exec f.instr s

/-! ### The request/reply codec -/

/-- RR_ENC: the frame byte by byte for both pad lengths, or `InvalidOperation` (40_request_reply.md R112). -/
def Obligations.RrEncWritesTheFrame : Prop :=
  ∀ s : State,
    (s.ops.op.toNat < 128 →
      exec .rrEnc s = .next { s with
        res := { s.res with
          out := some
            (if s.params.rrPadLen = 1 then
              ⟨#v[s.ops.op ||| (if s.ops.succ then 0x80 else 0x00), s.ops.vid.extractLsb' 0 8, s.ops.vid.extractLsb' 8 8, 0x00,
                s.ops.pay[0], s.ops.pay[1], s.ops.pay[2], s.ops.pay[3]], 8⟩
            else
              ⟨#v[s.ops.op ||| (if s.ops.succ then 0x80 else 0x00), s.ops.vid.extractLsb' 0 8, s.ops.vid.extractLsb' 8 8,
                s.ops.pay[0], s.ops.pay[1], s.ops.pay[2], s.ops.pay[3], 0x00], 7⟩) }
        status := 0x80
        draw := s.draw + 1 })
    ∧ (128 ≤ s.ops.op.toNat →
      exec .rrEnc s = .next { s with res := { s.res with out := none }, status := 0x81, draw := s.draw + 1 })

/-- RR_ENC is injective on its success domain, and its image is the frames whose pad byte, if any, is 0x00
(40_request_reply.md R113). -/
def Obligations.RrEncIsInjectiveOntoZeroPadFrames : Prop :=
  (∀ (s t s' t' : State) (o : OutGroup), s.params.rrPadLen = t.params.rrPadLen →
      s.ops.op.toNat < 128 → t.ops.op.toNat < 128 → exec .rrEnc s = .next s' → exec .rrEnc t = .next t' →
      s'.res.out = some o → t'.res.out = some o →
        s.ops.op = t.ops.op ∧ s.ops.succ = t.ops.succ ∧ s.ops.vid = t.ops.vid ∧ s.ops.pay = t.ops.pay)
    ∧ (∀ (s s' : State) (o : OutGroup), s.ops.op.toNat < 128 → exec .rrEnc s = .next s' → s'.res.out = some o →
        s.params.rrPadLen = 1 → o.buf[3] = 0x00)
    ∧ ∀ (p : Params) (frame : Vector Byte 8),
      (if p.rrPadLen = 1 then frame[3] = 0x00 else frame[7] = 0x00) →
      ∃ s s' : State, s.params = p ∧ s.ops.op.toNat < 128 ∧ exec .rrEnc s = .next s'
        ∧ s'.res.out = some ⟨frame, if p.rrPadLen = 1 then 8 else 7⟩

/-- RR_DEC: every register of group `RR` for both pad lengths, or `MalformedPacket` (40_request_reply.md R115, R116;
30_encoding.md R93). -/
def Obligations.RrDecReadsTheMessage : Prop :=
  ∀ s : State,
    (s.ops.inLen.toNat = 7 + s.params.rrPadLen.val →
      exec .rrDec s = .next { s with
        res := { s.res with
          rr := some
            { op := s.ops.inBuf[0].extractLsb' 0 7
              succ := s.ops.inBuf[0].getLsbD 7
              cls :=
                if s.ops.inBuf[0].extractLsb' 0 7 = 0#7 then 0
                else if s.ops.inBuf[0].extractLsb' 0 7 = 1#7 then 1
                else if s.ops.inBuf[0].extractLsb' 0 7 = 2#7 then 2
                else if s.ops.inBuf[0].extractLsb' 0 7 = 3#7 then 3 else 4
              vid := s.ops.inBuf[2] ++ s.ops.inBuf[1]
              pay :=
                if s.params.rrPadLen = 1 then #v[s.ops.inBuf[4], s.ops.inBuf[5], s.ops.inBuf[6], s.ops.inBuf[7]]
                else #v[s.ops.inBuf[3], s.ops.inBuf[4], s.ops.inBuf[5], s.ops.inBuf[6]]
              ts := s.now } }
        status := 0x80
        draw := s.draw + 1 })
    ∧ (s.ops.inLen.toNat ≠ 7 + s.params.rrPadLen.val →
      exec .rrDec s = .next { s with res := { s.res with rr := none }, status := 0x82, draw := s.draw + 1 })

/-- Decoding an encoded frame gives the operands back; encoding a decoded frame gives the frame back exactly when its
pad byte is 0x00 or there is none (40_request_reply.md R117). -/
def Obligations.RrRoundTrip : Prop :=
  (∀ (s s' r : State) (o : OutGroup), s.ops.op.toNat < 128 → exec .rrEnc s = .next s' → s'.res.out = some o →
      r.params = s.params → r.ops.inLen = o.len →
      (∀ j : Fin 8, j.val < o.len.toNat → r.ops.inBuf.get (j.castLE (by decide)) = o.buf.get j) →
      ∃ r' g, exec .rrDec r = .next r' ∧ statusErr r'.status = 0 ∧ r'.res.rr = some g
        ∧ g.op.setWidth 8 = s.ops.op ∧ g.succ = s.ops.succ ∧ g.vid = s.ops.vid ∧ g.pay = s.ops.pay)
    ∧ ∀ (s s' r : State) (g : RrGroup), exec .rrDec s = .next s' → statusErr s'.status = 0 → s'.res.rr = some g →
      r.params = s.params → r.ops.op = g.op.setWidth 8 → r.ops.succ = g.succ → r.ops.vid = g.vid → r.ops.pay = g.pay →
      ∃ r' o, exec .rrEnc r = .next r' ∧ statusErr r'.status = 0 ∧ r'.res.out = some o ∧ o.len = s.ops.inLen
        ∧ ((∀ j : Fin 8, j.val < o.len.toNat → o.buf.get j = s.ops.inBuf.get (j.castLE (by decide)))
          ↔ s.params.rrPadLen = 0 ∨ s.ops.inBuf[3] = 0x00)

/-- RR_BUILD: the address of the direction OR the node, and the very group `OUT` RR_ENC writes; both or neither
(40_request_reply.md R118, 30_encoding.md R94). -/
def Obligations.RrBuildMakesTheReadyFrame : Prop :=
  ∀ s : State,
    (s.ops.op.toNat < 128 →
      ∃ e : State, exec .rrEnc s = .next e ∧ e.res.out.isSome = true
        ∧ exec .rrBuild s = .next { s with
          res := { s.res with
            addr := some ((if s.ops.dir then s.params.repBase else s.params.reqBase) ||| s.ops.node)
            out := e.res.out }
          status := 0x80
          draw := s.draw + 1 })
    ∧ (128 ≤ s.ops.op.toNat →
      exec .rrBuild s = .next { s with
        res := { s.res with addr := none, out := none }, status := 0x81, draw := s.draw + 1 })

/-- The operation codes in byte 0 and their classes (40_request_reply.md R111, R121 to R124). -/
def Obligations.OperationCodesAndClasses : Prop :=
  encode (.noOp false) = 0x00 ∧ encode (.noOp true) = 0x80 ∧ opclass 0 = 0
    ∧ encode (.read false) = 0x01 ∧ encode (.read true) = 0x81 ∧ opclass 1 = 1
    ∧ encode (.write false) = 0x02 ∧ encode (.write true) = 0x82 ∧ opclass 2 = 2
    ∧ encode (.store false) = 0x03 ∧ encode (.store true) = 0x83 ∧ opclass 3 = 3
    ∧ ∀ op : BitVec 7, 4 ≤ op.toNat → opclass op = 4

/-- A frame of the right length whose byte 0 is a row of format RR_BYTE0 is delivered with that row's code, class and
flag; at any other length it is `MalformedPacket` (40_request_reply.md R115, R121 to R125; a row as an instruction is
the model's reading, log 6). -/
def Obligations.OperationRowsAreDelivered : Prop :=
  ∀ (s : State) (flag : Bool) (code : BitVec 7),
    let delivered (op : BitVec 7) (cls : BitVec 3) : State :=
      { s with
        res := { s.res with
          rr := some
            { op := op, succ := flag, cls := cls, vid := s.ops.inBuf[2] ++ s.ops.inBuf[1]
              pay :=
                if s.params.rrPadLen = 1 then #v[s.ops.inBuf[4], s.ops.inBuf[5], s.ops.inBuf[6], s.ops.inBuf[7]]
                else #v[s.ops.inBuf[3], s.ops.inBuf[4], s.ops.inBuf[5], s.ops.inBuf[6]]
              ts := s.now } }
        status := 0x80
        draw := s.draw + 1 }
    let malformed : State := { s with res := { s.res with rr := none }, status := 0x82, draw := s.draw + 1 }
    (s.ops.inLen.toNat = 7 + s.params.rrPadLen.val →
      exec (.noOp flag) s = .next (delivered 0 0) ∧ exec (.read flag) s = .next (delivered 1 1)
        ∧ exec (.write flag) s = .next (delivered 2 2) ∧ exec (.store flag) s = .next (delivered 3 3)
        ∧ (4 ≤ code.toNat → exec (.reserved flag code) s = .next (delivered code 4)))
    ∧ (s.ops.inLen.toNat ≠ 7 + s.params.rrPadLen.val →
      exec (.noOp flag) s = .next malformed ∧ exec (.read flag) s = .next malformed
        ∧ exec (.write flag) s = .next malformed ∧ exec (.store flag) s = .next malformed
        ∧ (4 ≤ code.toNat → exec (.reserved flag code) s = .next malformed))

/-- The encoders put the row of the operation into byte 0: the byte RR_ENC and RR_BUILD write there decodes to the row
of `OP` and `SUCC`, a reserved code like a named one (40_request_reply.md R125, 30_encoding.md R97). -/
def Obligations.EncodersCarryEveryOperationRow : Prop :=
  ∀ (s : State) (i : Instr), i.format = .rrByte0 → i.wf = true →
    s.ops.op = (unpackOp (encode i)).setWidth 8 → s.ops.succ = unpackSuccess (encode i) →
    ∃ e b o p, exec .rrEnc s = .next e ∧ exec .rrBuild s = .next b ∧ e.res.out = some o ∧ b.res.out = some p
      ∧ o.buf[0] = encode i ∧ p.buf[0] = encode i ∧ statusErr e.status = 0 ∧ statusErr b.status = 0

/-! ### The telemetry codec -/

/-- TLM_ENC: four channels little-endian, or `ValueOutOfRange` when a channel is outside [-32768, 32767]; a channel is in
that range exactly when its bits 31:15 are all equal (41_telemetry.md R141, R142). -/
def Obligations.TlmEncPacksOrRefuses : Prop :=
  (∀ s : State,
    ((∀ k : Fin 4, -32768 ≤ (s.ops.rpmIn.get k).toInt ∧ (s.ops.rpmIn.get k).toInt ≤ 32767) →
      exec .tlmEnc s = .next { s with
        res := { s.res with
          out := some
            ⟨#v[s.ops.rpmIn[0].extractLsb' 0 8, s.ops.rpmIn[0].extractLsb' 8 8,
                s.ops.rpmIn[1].extractLsb' 0 8, s.ops.rpmIn[1].extractLsb' 8 8,
                s.ops.rpmIn[2].extractLsb' 0 8, s.ops.rpmIn[2].extractLsb' 8 8,
                s.ops.rpmIn[3].extractLsb' 0 8, s.ops.rpmIn[3].extractLsb' 8 8], 8⟩ }
        status := 0x80
        draw := s.draw + 1 })
    ∧ ((∃ k : Fin 4, (s.ops.rpmIn.get k).toInt < -32768 ∨ 32767 < (s.ops.rpmIn.get k).toInt) →
      exec .tlmEnc s = .next { s with res := { s.res with out := none }, status := 0x85, draw := s.draw + 1 }))
    ∧ ∀ v : Word, (-32768 ≤ v.toInt ∧ v.toInt ≤ 32767) ↔
      v.extractLsb' 15 17 = 0 ∨ v.extractLsb' 15 17 = BitVec.allOnes 17

/-- The channels are independent lanes but for the error: a lane's bytes depend on that lane alone, and one lane out of
range fails the whole command (41_telemetry.md R143). -/
def Obligations.TelemetryLanesAreIndependent : Prop :=
  (∀ (s t s' t' : State) (o p : OutGroup) (k : Fin 4), s.ops.rpmIn.get k = t.ops.rpmIn.get k →
      exec .tlmEnc s = .next s' → exec .tlmEnc t = .next t' → s'.res.out = some o → t'.res.out = some p →
        o.buf.get ⟨2 * k.val, by omega⟩ = p.buf.get ⟨2 * k.val, by omega⟩
          ∧ o.buf.get ⟨2 * k.val + 1, by omega⟩ = p.buf.get ⟨2 * k.val + 1, by omega⟩)
    ∧ ∀ (s s' : State) (k : Fin 4), fitsSigned16 (s.ops.rpmIn.get k) = false → exec .tlmEnc s = .next s' →
      s'.res.out = none ∧ statusErr s'.status = 5

/-- TLM_DEC: every register of group `TLM`, or `MalformedPacket` (41_telemetry.md R144, R145). -/
def Obligations.TlmDecReadsTheChannels : Prop :=
  ∀ s : State,
    (s.ops.inLen = 8 →
      exec .tlmDec s = .next { s with
        res := { s.res with
          tlm := some
            ⟨#v[s.ops.inBuf[1] ++ s.ops.inBuf[0], s.ops.inBuf[3] ++ s.ops.inBuf[2],
                s.ops.inBuf[5] ++ s.ops.inBuf[4], s.ops.inBuf[7] ++ s.ops.inBuf[6]], s.now⟩ }
        status := 0x80
        draw := s.draw + 1 })
    ∧ (s.ops.inLen ≠ 8 →
      exec .tlmDec s = .next { s with res := { s.res with tlm := none }, status := 0x82, draw := s.draw + 1 })

/-- Decoding an encoded telemetry frame gives the readings back, and encoding a decoded one gives the bytes back, without
condition (41_telemetry.md R146). -/
def Obligations.TelemetryRoundTrip : Prop :=
  (∀ (s s' r : State) (o : OutGroup), exec .tlmEnc s = .next s' → statusErr s'.status = 0 → s'.res.out = some o →
      r.ops.inLen = 8 → (∀ j : Fin 8, r.ops.inBuf.get (j.castLE (by decide)) = o.buf.get j) →
      ∃ r' g, exec .tlmDec r = .next r' ∧ r'.res.tlm = some g
        ∧ ∀ k : Fin 4, (g.rpm.get k).toInt = (s.ops.rpmIn.get k).toInt)
    ∧ ∀ (s s' r : State) (g : TlmGroup), exec .tlmDec s = .next s' → statusErr s'.status = 0 → s'.res.tlm = some g →
      (∀ k : Fin 4, r.ops.rpmIn.get k = (g.rpm.get k).signExtend 32) →
      ∃ r' o, exec .tlmEnc r = .next r' ∧ r'.res.out = some o ∧ o.len = 8
        ∧ ∀ j : Fin 8, o.buf.get j = s.ops.inBuf.get (j.castLE (by decide))

/-- With a pad byte both frames are 8 bytes long and nothing in the bytes tells them apart: every 8-byte string decodes
under both decoders (30_encoding.md R98). -/
def Obligations.BothDecodersAcceptEveryEightBytes : Prop :=
  ∀ s : State, s.params.rrPadLen = 1 → s.ops.inLen = 8 →
    ∃ a b, exec .rrDec s = .next a ∧ exec .tlmDec s = .next b ∧ a.res.rr.isSome = true ∧ b.res.tlm.isSome = true
      ∧ statusErr a.status = 0 ∧ statusErr b.status = 0

/-! ### The value registry -/

/-- FMT_LOOKUP: the code of the registry's format, or `UnregisteredValueId` (42_value_registry.md R156). -/
def Obligations.FmtLookupAnswersTheRegistry : Prop :=
  ∀ s : State,
    exec .fmtLookup s = .next
      (match Registry.formatOf s.params.registry s.ops.vid with
        | none => { s with res := { s.res with fmt := none }, status := 0x84, draw := s.draw + 1 }
        | some f =>
          { s with
            res := { s.res with
              fmt := some (match f with | .signedShort16 => 0 | .unsignedShort16 => 1 | .float32 => 2 | .bool8 => 3) }
            status := 0x80
            draw := s.draw + 1 })

/-- VAL_DEC: length first, registry second, then the four reinterpretations (42_value_registry.md R159, R160). -/
def Obligations.ValDecInterpretsThePayload : Prop :=
  ∀ s : State,
    let done (g : Option ValGroup) (status : Byte) : State :=
      { s with res := { s.res with val := g }, status := status, draw := s.draw + 1 }
    (s.ops.inLen ≠ 4 → exec .valDec s = .next (done none 0x83))
    ∧ (s.ops.inLen = 4 →
      exec .valDec s = .next
        (match Registry.formatOf s.params.registry s.ops.vid with
          | none => done none 0x84
          | some .signedShort16 => done (some ⟨0, (s.ops.inBuf[1] ++ s.ops.inBuf[0] : Half).signExtend 32⟩) 0x80
          | some .unsignedShort16 => done (some ⟨1, (s.ops.inBuf[1] ++ s.ops.inBuf[0] : Half).setWidth 32⟩) 0x80
          | some .float32 =>
            done (some ⟨2, s.ops.inBuf[3] ++ s.ops.inBuf[2] ++ s.ops.inBuf[1] ++ s.ops.inBuf[0]⟩) 0x80
          | some .bool8 => done (some ⟨3, if s.ops.inBuf[0] ≠ 0x00 then 1 else 0⟩) 0x80))

/-- The tagged value is in the range of its tag (42_value_registry.md R163). -/
def Obligations.TaggedValueIsInRangeOfItsTag : Prop :=
  ∀ (s t : State) (g : ValGroup), exec .valDec s = .next t → t.res.val = some g →
    (g.fmt = 0 → -32768 ≤ g.val.toInt ∧ g.val.toInt ≤ 32767)
      ∧ (g.fmt = 1 → g.val.toNat ≤ 65535) ∧ (g.fmt = 3 → g.val = 0 ∨ g.val = 1)

/-- The rows of format VALFMT: a payload of 4 bytes under each format; at any other length `InvalidPayloadLength`
(30_encoding.md R89 to R92; a row as an instruction is the model's reading, log 7). -/
def Obligations.FormatRowsInterpretThePayload : Prop :=
  ∀ s : State,
    let done (g : Option ValGroup) (status : Byte) : State :=
      { s with res := { s.res with val := g }, status := status, draw := s.draw + 1 }
    (s.ops.inLen = 4 →
      exec .signedShort16 s = .next (done (some ⟨0, (s.ops.inBuf[1] ++ s.ops.inBuf[0] : Half).signExtend 32⟩) 0x80)
        ∧ exec .unsignedShort16 s = .next (done (some ⟨1, (s.ops.inBuf[1] ++ s.ops.inBuf[0] : Half).setWidth 32⟩) 0x80)
        ∧ exec .float32 s =
          .next (done (some ⟨2, s.ops.inBuf[3] ++ s.ops.inBuf[2] ++ s.ops.inBuf[1] ++ s.ops.inBuf[0]⟩) 0x80)
        ∧ exec .bool8 s = .next (done (some ⟨3, if s.ops.inBuf[0] ≠ 0x00 then 1 else 0⟩) 0x80))
    ∧ (s.ops.inLen ≠ 4 →
      exec .signedShort16 s = .next (done none 0x83) ∧ exec .unsignedShort16 s = .next (done none 0x83)
        ∧ exec .float32 s = .next (done none 0x83) ∧ exec .bool8 s = .next (done none 0x83))

/-- VAL_ENC where it exists: registry first, range second, then the four payloads (42_value_registry.md R165, R166). -/
def Obligations.ValEncProducesThePayload : Prop :=
  ∀ s : State, s.params.hasValEnc = true →
    let v := s.ops.valIn
    let done (g : Option OutGroup) (status : Byte) : State :=
      { s with res := { s.res with out := g }, status := status, draw := s.draw + 1 }
    exec .valEnc s = .next
      (match Registry.formatOf s.params.registry s.ops.vid with
        | none => done none 0x84
        | some .signedShort16 =>
          if v.toInt < -32768 ∨ 32767 < v.toInt then done none 0x85
          else done (some ⟨#v[v.extractLsb' 0 8, v.extractLsb' 8 8, 0, 0, 0, 0, 0, 0], 4⟩) 0x80
        | some .unsignedShort16 =>
          if 65535 < v.toNat then done none 0x85
          else done (some ⟨#v[v.extractLsb' 0 8, v.extractLsb' 8 8, 0, 0, 0, 0, 0, 0], 4⟩) 0x80
        | some .float32 =>
          done (some ⟨#v[v.extractLsb' 0 8, v.extractLsb' 8 8, v.extractLsb' 16 8, v.extractLsb' 24 8, 0, 0, 0, 0], 4⟩) 0x80
        | some .bool8 => done (some ⟨#v[if v ≠ 0 then 0x01 else 0x00, 0, 0, 0, 0, 0, 0, 0], 4⟩) 0x80)

/-- Decoding a payload and re-encoding the value gives a canonical payload, the same bytes exactly when the payload was
canonical; encoding a value and decoding the payload gives the value back, for `Bool8` its truth (42_value_registry.md
R167). -/
def Obligations.ValueRoundTrip : Prop :=
  let canonical (f : WireFormat) (b0 b1 b2 b3 : Byte) : Prop :=
    match f with
    | .signedShort16 | .unsignedShort16 => b2 = 0x00 ∧ b3 = 0x00
    | .float32 => True
    | .bool8 => (b0 = 0x00 ∨ b0 = 0x01) ∧ b1 = 0x00 ∧ b2 = 0x00 ∧ b3 = 0x00
  (∀ (s : State) (f : WireFormat), s.ops.inLen = 4 → s.params.hasValEnc = true →
      Registry.formatOf s.params.registry s.ops.vid = some f →
      ∃ s' g, exec .valDec s = .next s' ∧ statusErr s'.status = 0 ∧ s'.res.val = some g
        ∧ ∀ r : State, r.params = s.params → r.ops.vid = s.ops.vid → r.ops.valIn = g.val →
          ∃ r' o, exec .valEnc r = .next r' ∧ statusErr r'.status = 0 ∧ r'.res.out = some o ∧ o.len = 4
            ∧ canonical f o.buf[0] o.buf[1] o.buf[2] o.buf[3]
            ∧ (o.buf[0] = s.ops.inBuf[0] ∧ o.buf[1] = s.ops.inBuf[1] ∧ o.buf[2] = s.ops.inBuf[2]
                ∧ o.buf[3] = s.ops.inBuf[3]
              ↔ canonical f s.ops.inBuf[0] s.ops.inBuf[1] s.ops.inBuf[2] s.ops.inBuf[3]))
    ∧ ∀ (s s' r : State) (o : OutGroup) (f : WireFormat), exec .valEnc s = .next s' → statusErr s'.status = 0 →
      s'.res.out = some o → Registry.formatOf s.params.registry s.ops.vid = some f →
      r.params = s.params → r.ops.vid = s.ops.vid → r.ops.inLen = o.len →
      (∀ j : Fin 4, r.ops.inBuf.get (j.castLE (by decide)) = o.buf.get (j.castLE (by decide))) →
      ∃ r' g, exec .valDec r = .next r' ∧ statusErr r'.status = 0 ∧ r'.res.val = some g
        ∧ g.val = if f = .bool8 then (if s.ops.valIn = 0 then 0 else 1) else s.ops.valIn

/-- No step writes the parameters of the build, the registry among them (10_state.md R42, R48; 20_memory.md R74). -/
def Obligations.NoStepChangesTheBuild : Prop :=
  ∀ s t : State, step s = .next t → t.params = s.params

/-- The tool that builds the ROM from a table of names reports two rows on one number, rows at two different places of
the table, and only where there are such; a ROM it builds answers every row's format and no other id (70_reset_and_hazards.md R243, 42_value_registry.md R158). -/
def Obligations.RomToolReportsExactlyTheCollisions : Prop :=
  ∀ table : List (String × Half × WireFormat),
    ((∃ rom, buildRom table = .ok rom) ↔ (table.map fun row => row.2.1).Nodup)
      ∧ (∀ rom, buildRom table = .ok rom →
        (∀ row ∈ table, Registry.formatOf rom row.2.1 = some row.2.2)
          ∧ ∀ id, (∀ row ∈ table, row.2.1 ≠ id) → Registry.formatOf rom id = none)
      ∧ ∀ name other id, buildRom table = .error (name, other, id) →
        ∃ f g, List.Sublist [(name, id, f), (other, id, g)] table

/-! ### Vec2 -/

/-- VEC2_NEW always succeeds where it exists; a component that is not a NaN is clamped (46_companion_vec2.md R181,
R182: the limits ±1.0 and their patterns; the numerical order read off the magnitude bits). -/
def Obligations.Vec2NewClampsEachComponent : Prop :=
  ∀ s : State, s.params.hasVec2 = true →
    let clamped (v : Word) : Word :=
      if 0x3F800000 < (v.setWidth 31 : BitVec 31).toNat then (if v.getLsbD 31 then 0xBF800000 else 0x3F800000) else v
    let nan (v : Word) : Prop := v.extractLsb' 23 8 = 0xFF#8 ∧ v.extractLsb' 0 23 ≠ 0#23
    ∃ x y : Word, exec .vec2New s = .next { s with
        res := { s.res with vec := some ⟨x, y⟩ }, status := 0x80, draw := s.draw + 1 }
      ∧ (¬ nan s.ops.vxIn → x = clamped s.ops.vxIn) ∧ (¬ nan s.ops.vyIn → y = clamped s.ops.vyIn)

/-- A component VEC2_NEW leaves is a NaN or a number in [-1.0, 1.0], whatever the operands; it is a NaN only for an
operand that is one (46_companion_vec2.md R180, R183). -/
def Obligations.Vec2ComponentsStayInTheClampRange : Prop :=
  ∀ (s t : State) (g : VecGroup), exec .vec2New s = .next t → statusErr t.status = 0 → t.res.vec = some g →
    ∀ c ∈ [(s.ops.vxIn, g.x), (s.ops.vyIn, g.y)],
      (isNaN c.2 = true → isNaN c.1 = true)
        ∧ (isNaN c.2 = false → -(2 ^ 149 : Int) ≤ floatNumber c.2 ∧ floatNumber c.2 ≤ 2 ^ 149)

/-! ### The timer -/

/-- TMR_INIT where the timer exists: a timer of the period and of a deadline the spec leaves open, or `ValueOutOfRange`
for a zero period (60_exceptions.md R211). -/
def Obligations.TmrInitCreatesTheTimer : Prop :=
  ∀ s : State, s.params.hasTimer = true →
    (s.ops.periodIn ≠ 0 →
      ∃ d0 : Tick, exec .tmrInit s = .next { s with
        timer := some ⟨s.ops.periodIn, d0⟩, status := 0x80, draw := s.draw + 1 })
    ∧ (s.ops.periodIn = 0 → exec .tmrInit s = .next { s with status := 0x85, draw := s.draw + 1 })

/-- TMR_CHECK where the timer exists: not created, not yet due, due (60_exceptions.md R213, R215). -/
def Obligations.TmrCheckFiresWhenDue : Prop :=
  ∀ s : State, s.params.hasTimer = true →
    (s.timer = none → exec .tmrCheck s = .next { s with status := 0x86, draw := s.draw + 1 })
    ∧ ∀ tm : Timer, s.timer = some tm →
      (s.now < tm.deadline →
        exec .tmrCheck s = .next { s with
          res := { s.res with tmr := some ⟨false, 0⟩ }, status := 0x80, draw := s.draw + 1 })
      ∧ ∀ m : Nat, tm.period ≠ 0 → tm.deadline ≤ s.now →
        m * tm.period.toNat ≤ s.now.toNat - tm.deadline.toNat →
        s.now.toNat - tm.deadline.toNat < (m + 1) * tm.period.toNat →
        tm.deadline.toNat + (m + 1) * tm.period.toNat < 2 ^ 64 →
          exec .tmrCheck s = .next { s with
            res := { s.res with tmr := some ⟨true, BitVec.ofNat 64 m⟩ }
            timer := some { tm with deadline := tm.deadline + BitVec.ofNat 64 (m + 1) * tm.period }
            status := if m = 0 then 0x80 else 0x90
            draw := s.draw + 1 }

/-- After a firing check the deadline is later than the time read, by at most a period; its phase is unchanged by any
check; and a check that then reads a time before it does not fire and leaves the timer alone (60_exceptions.md R214). -/
def Obligations.TmrCheckNeverRefiresOrDrifts : Prop :=
  ∀ (s t : State) (tm : Timer) (g : TmrGroup), s.params.hasTimer = true → s.timer = some tm → tm.period ≠ 0 →
    exec .tmrCheck s = .next t → t.res.tmr = some g →
    ∃ tm' : Timer, t.timer = some tm' ∧ tm'.period = tm.period
      ∧ tm'.deadline.toNat % tm.period.toNat = tm.deadline.toNat % tm.period.toNat
      ∧ (g.fired = true → s.now < tm'.deadline ∧ tm'.deadline.toNat - s.now.toNat ≤ tm.period.toNat
        ∧ tm'.deadline.toNat = tm.deadline.toNat + (g.missed.toNat + 1) * tm.period.toNat
        ∧ ∀ time : Tick, time < tm'.deadline →
          ∃ u, exec .tmrCheck { t with now := time } = .next u ∧ u.res.tmr = some ⟨false, 0⟩ ∧ u.timer = t.timer)

/-- TMR_RESET where the timer exists: the deadline is one period from now, and the group `TMR` is not touched
(60_exceptions.md R217). -/
def Obligations.TmrResetRealignsTheDeadline : Prop :=
  ∀ s : State, s.params.hasTimer = true →
    (s.timer = none → exec .tmrReset s = .next { s with status := 0x86, draw := s.draw + 1 })
    ∧ ∀ tm : Timer, s.timer = some tm → s.now.toNat + tm.period.toNat < 2 ^ 64 →
      exec .tmrReset s = .next { s with
        timer := some { tm with deadline := s.now + tm.period }, status := 0x80, draw := s.draw + 1 }

/-- Where the timer commands have no next state: a deadline that would reach 2^64 (60_exceptions.md R213, R217 leave the
result undefined; 93_implementation_defined.md U15: stuck; log 11), and a due timer of period 0, which TMR_INIT never
makes (R211; the model's choice, log 12). -/
def Obligations.DeadlineBeyondSixtyFourBitsIsStuck : Prop :=
  ∀ (s : State) (tm : Timer), s.params.hasTimer = true → s.timer = some tm →
    (exec .tmrReset s = .fault .deadlineOverflow ↔ 2 ^ 64 ≤ s.now.toNat + tm.period.toNat)
    ∧ (exec .tmrCheck s = .fault .deadlineOverflow ↔ tm.period ≠ 0 ∧ tm.deadline ≤ s.now
      ∧ 2 ^ 64 ≤ tm.deadline.toNat
        + ((s.now.toNat - tm.deadline.toNat) / tm.period.toNat + 1) * tm.period.toNat)
    ∧ (exec .tmrCheck s = .fault .zeroPeriod ↔ tm.period = 0 ∧ tm.deadline ≤ s.now)

/-- A command other than TMR_CHECK leaves `CATCHUP` = 0, and only the timer commands change the timer; a reset destroys
it (60_exceptions.md R219). -/
def Obligations.OnlyTimerCommandsTouchTheTimer : Prop :=
  (∀ (i : Instr) (s t : State), i ≠ .tmrCheck → exec i s = .next t → statusCatchup t.status = false)
    ∧ (∀ (i : Instr) (s t : State), i ∉ [.tmrInit, .tmrCheck, .tmrReset] → exec i s = .next t → t.timer = s.timer)
    ∧ (∀ (i : Instr) (s t : State) (tm : Option Timer), i ∉ [.tmrInit, .tmrCheck, .tmrReset] →
        exec i s = .next t → exec i { s with timer := tm } = .next { t with timer := tm })
    ∧ ∀ s : State, (applyReset s).timer = none

/-! ### Errors and completion -/

/-- No command writes an operand register, a parameter, `CMD` or anything of the host's (10_state.md R20 (b), R21). -/
def Obligations.CommandsWriteNoOperand : Prop :=
  ∀ (i : Instr) (s t : State), exec i s = .next t → HostSideKept s t

/-- A command never touches the groups it does not own (10_state.md R36). -/
def Obligations.CommandsTouchOnlyTheirGroups : Prop :=
  ∀ (i : Instr) (s t : State) (g : Group), exec i s = .next t → g ∉ ownedGroups i → sameGroup s t g

/-- A command that succeeds sets the valid bits of all its groups; one that fails leaves the state as it was but for
`STATUS` and its groups, now invalid; an illegal command keeps even those (10_state.md R36; 60_exceptions.md R195,
R196). -/
def Obligations.ValidBitsTellSuccessFromFailure : Prop :=
  ∀ (i : Instr) (s t : State), exec i s = .next t →
    (statusErr t.status = 0 → ∀ g ∈ ownedGroups i, t.res.valid g = true)
      ∧ (statusErr t.status ≠ 0 → statusErr t.status ≠ 6 →
        (∀ g ∈ ownedGroups i, t.res.valid g = false) ∧ (∀ g, g ∉ ownedGroups i → sameGroup s t g)
          ∧ t = { s with res := t.res, status := 0x80 ||| (statusErr t.status).setWidth 8, draw := s.draw + 1 })
      ∧ (statusErr t.status = 6 → t = { s with status := 0x86, draw := s.draw + 1 })

/-- Which command raises which error, and exactly when (60_exceptions.md R191, with the priority of R199). That the rows
of formats RR_BYTE0 and VALFMT fail as RR_DEC and VAL_DEC do is the model's reading (logs 6 and 7). -/
def Obligations.ErrorCodesHaveExactlyTheirCauses : Prop :=
  ∀ (i : Instr) (s t : State), exec i s = .next t →
    let e := (statusErr t.status).toNat
    let unregistered : Prop := Registry.formatOf s.params.registry s.ops.vid = none
    (e = 1 ↔ (i = .rrEnc ∨ i = .rrBuild) ∧ 128 ≤ s.ops.op.toNat)
      ∧ (e = 2 ↔ ((i = .rrDec ∨ i.format = .rrByte0) ∧ s.ops.inLen.toNat ≠ 7 + s.params.rrPadLen.val)
        ∨ (i = .tlmDec ∧ s.ops.inLen ≠ 8))
      ∧ (e = 3 ↔ (i = .valDec ∨ i.format = .valFmt) ∧ s.ops.inLen ≠ 4)
      ∧ (e = 4 ↔ unregistered
        ∧ (i = .fmtLookup ∨ (i = .valDec ∧ s.ops.inLen = 4) ∨ (i = .valEnc ∧ s.params.hasValEnc = true)))
      ∧ (e = 5 ↔ (i = .tlmEnc ∧ ∃ k : Fin 4, fitsSigned16 (s.ops.rpmIn.get k) = false)
        ∨ (i = .valEnc ∧ s.params.hasValEnc = true ∧
          ((Registry.formatOf s.params.registry s.ops.vid = some .signedShort16 ∧ fitsSigned16 s.ops.valIn = false)
            ∨ (Registry.formatOf s.params.registry s.ops.vid = some .unsignedShort16 ∧ 65535 < s.ops.valIn.toNat)))
        ∨ (i = .tmrInit ∧ s.params.hasTimer = true ∧ s.ops.periodIn = 0))
      ∧ (e = 6 ↔ unitPresent s.params i = false ∨ ((i = .tmrCheck ∨ i = .tmrReset) ∧ s.timer = none))
      ∧ e ≤ 6

/-- Every command completes, with `BUSY` = 0 and `DONE` = 1, but for a timer whose new deadline or period is none the
spec defines (70_reset_and_hazards.md R238, R248; 93_implementation_defined.md U15). -/
def Obligations.EveryCommandCompletes : Prop :=
  ∀ (i : Instr) (s : State),
    (∃ t, exec i s = .next t ∧ statusBusy t.status = false ∧ statusDoneBit t.status = true)
      ∨ ((i = .tmrCheck ∨ i = .tmrReset) ∧ s.params.hasTimer = true ∧ ∃ tm, s.timer = some tm
        ∧ (tm.period = 0 ∨ 2 ^ 64 ≤ s.now.toNat + tm.period.toNat))

/-- An error does not block, lock or poison the block: what a command does, does not depend on `STATUS` or `CMD`, and a
completed command rewrites all of `STATUS` (60_exceptions.md R201, R206). -/
def Obligations.StatusInfluencesNoCommand : Prop :=
  ∀ (i : Instr) (s t : State) (status code : Byte), exec i s = .next t →
    exec i { s with status := status, cmd := code } = .next { t with cmd := code }

/-- A codec, registry or vector command issued again on the same operands leaves the same state (20_memory.md R68; equal
times give equal stamps, and a NaN component is open, R183). -/
def Obligations.CodecCommandsAreIdempotent : Prop :=
  ∀ (i : Instr) (s t : State), i ∉ [.tmrInit, .tmrCheck, .tmrReset] →
    (i = .vec2New → isNaN s.ops.vxIn = false ∧ isNaN s.ops.vyIn = false) →
    exec i s = .next t → exec i t = .next { t with draw := t.draw + 1 }

/-- Two instances of the block agree on every codec result for equal operands: results depend on the operands, the
build and the time only, never on earlier results, `STATUS` or the timer (60_exceptions.md R209, 20_memory.md R68). -/
def Obligations.CodecResultsDependOnOperandsOnly : Prop :=
  ∀ (i : Instr) (s t s' t' : State), i ∉ [.tmrInit, .tmrCheck, .tmrReset] →
    (i = .vec2New → isNaN s.ops.vxIn = false ∧ isNaN s.ops.vyIn = false) →
    s.params = t.params → s.ops = t.ops → s.now = t.now → exec i s = .next s' → exec i t = .next t' →
      s'.status = t'.status ∧ (unitPresent s.params i = true → ∀ g ∈ ownedGroups i, sameGroup s' t' g)

/-! ### The host's accesses -/

/-- A register the host writes reads back the low bits of its width, little-endian (20_memory.md R63, R66, R67). -/
def Obligations.WrittenRegisterReadsBack : Prop :=
  ∀ (s : State) (r : Reg) (bytes : List Byte) (rest : List HostAccess), r.writable = true →
    r.existsIn s.params = true → bytes.length = r.size → statusBusy s.status = false →
    s.inbox = .write r.offset bytes :: .read r.offset r.size :: rest →
    ∃ t u, step s = .next t ∧ step t = .next u
      ∧ u.readData = (if r = .succ ∨ r = .dir then bytes.map (· &&& 0x01) else bytes)

/-- A host write of an operand register changes that register alone, and a write of a read-only register changes
nothing: every other register that exists reads as before (10_state.md R21, 20_memory.md R67). -/
def Obligations.HostWriteChangesOneRegisterAtMost : Prop :=
  ∀ (s : State) (r : Reg) (bytes : List Byte) (rest : List HostAccess), r ≠ .cmd → r.existsIn s.params = true →
    bytes.length = r.size → statusBusy s.status = false → s.inbox = .write r.offset bytes :: rest →
    ∃ t, step s = .next t ∧ t = { s with inbox := rest, ops := t.ops }
      ∧ (r.writable = false → t.ops = s.ops) ∧ ∀ q : Reg, q ≠ r → readReg q t = readReg q s

/-- A host read changes nothing but what the read returns, and a second read of the same bytes returns the same
(20_memory.md R67). -/
def Obligations.HostReadsHaveNoSideEffect : Prop :=
  ∀ (s t : State) (offset size : Nat) (rest : List HostAccess), s.inbox = .read offset size :: rest →
    step s = .next t →
    t = { s with inbox := rest, readData := t.readData }
      ∧ step { t with inbox := .read offset size :: rest } = .next t

/-- A step in which the host of an idle block reads one whole register answers the register's bytes, the least
significant first, and changes nothing else: every register of the map at the offset of 20_memory.md R66, a result
register where its group is valid, `TMR_PERIOD` and `TMR_DEADLINE` where a timer exists (10_state.md R22 to R46;
20_memory.md R63, R67). The access served and the bytes read are the model's fields (logs 9 and 16). -/
def Obligations.HostReadsReturnTheRegisters : Prop :=
  ∀ (s : State) (rest : List HostAccess), statusBusy s.status = false →
    let reads (offset : Nat) (bytes : List Byte) : Prop :=
      step { s with inbox := .read offset bytes.length :: rest } = .next { s with inbox := rest, readData := bytes }
    let one (b : Bool) : List Byte := [if b then 0x01 else 0x00]
    let two (v : Half) : List Byte := [v.extractLsb' 0 8, v.extractLsb' 8 8]
    let four (v : Word) : List Byte := [v.extractLsb' 0 8, v.extractLsb' 8 8, v.extractLsb' 16 8, v.extractLsb' 24 8]
    let eight (v : Tick) : List Byte :=
      [v.extractLsb' 0 8, v.extractLsb' 8 8, v.extractLsb' 16 8, v.extractLsb' 24 8,
        v.extractLsb' 32 8, v.extractLsb' 40 8, v.extractLsb' 48 8, v.extractLsb' 56 8]
    (reads 0x00 [s.cmd] ∧ reads 0x01 [s.status]
      ∧ ∃ rvalid : Byte, reads 0x02 [rvalid]
        ∧ rvalid.getLsbD 0 = s.res.out.isSome ∧ rvalid.getLsbD 1 = s.res.rr.isSome
        ∧ rvalid.getLsbD 2 = s.res.tlm.isSome ∧ rvalid.getLsbD 3 = s.res.val.isSome
        ∧ rvalid.getLsbD 4 = s.res.addr.isSome ∧ rvalid.getLsbD 5 = s.res.tmr.isSome
        ∧ rvalid.getLsbD 6 = s.res.vec.isSome ∧ rvalid.getLsbD 7 = s.res.fmt.isSome)
    ∧ (reads 0x03 [s.ops.inLen] ∧ reads 0x04 [s.ops.op] ∧ reads 0x05 (one s.ops.succ) ∧ reads 0x06 (one s.ops.dir)
      ∧ reads 0x08 (two s.ops.vid) ∧ (∀ i : Fin 4, reads (0x0C + i.val) [s.ops.pay.get i])
      ∧ reads 0x10 (four s.ops.node) ∧ (s.params.hasValEnc = true → reads 0x14 (four s.ops.valIn))
      ∧ (∀ k : Fin 4, reads (0x20 + 4 * k.val) (four (s.ops.rpmIn.get k)))
      ∧ ∀ i : Fin 16, reads (0x30 + i.val) [s.ops.inBuf.get i])
    ∧ (∀ g, s.res.out = some g → (∀ j : Fin 8, reads (0x40 + j.val) [g.buf.get j]) ∧ reads 0x48 [g.len])
    ∧ (∀ g, s.res.rr = some g →
      reads 0x49 [g.op.setWidth 8] ∧ reads 0x4A (one g.succ) ∧ reads 0x4B [g.cls.setWidth 8] ∧ reads 0x4C (two g.vid)
        ∧ (∀ i : Fin 4, reads (0x50 + i.val) [g.pay.get i]) ∧ reads 0x68 (eight g.ts))
    ∧ (∀ g, s.res.tlm = some g →
      (∀ k : Fin 4, reads (0x58 + 2 * k.val) (two (g.rpm.get k))) ∧ reads 0x70 (eight g.ts))
    ∧ (∀ g, s.res.val = some g → reads 0x4E [g.fmt.setWidth 8] ∧ reads 0x54 (four g.val))
    ∧ (∀ f, s.res.fmt = some f → reads 0x4F [f.setWidth 8])
    ∧ (∀ a, s.res.addr = some a → reads 0x60 (four a))
    ∧ (s.params.hasTimer = true →
      reads 0x80 (eight s.ops.periodIn) ∧ reads 0xA1 (one s.timer.isSome)
        ∧ (∀ t, s.timer = some t → reads 0x88 (eight t.period) ∧ reads 0x90 (eight t.deadline))
        ∧ ∀ g, s.res.tmr = some g → reads 0x98 (eight g.missed) ∧ reads 0xA0 (one g.fired))
    ∧ (s.params.hasVec2 = true →
      reads 0xA8 (four s.ops.vxIn) ∧ reads 0xAC (four s.ops.vyIn)
        ∧ ∀ g, s.res.vec = some g → reads 0xB0 (four g.x) ∧ reads 0xB4 (four g.y))

/-- An access that covers part of a register, or more than one, is refused (20_memory.md R67). That the same holds of one
whole register together with reserved bytes, and of no bytes inside a register, is the model's choice (log 14). -/
def Obligations.PartialAccessesAreRefused : Prop :=
  ∀ (s : State) (r : Reg) (offset size : Nat) (bytes : List Byte) (rest : List HostAccess),
    r.existsIn s.params = true → r.overlaps offset size = true → ¬ (r.offset = offset ∧ r.size = size) →
    offset + size ≤ 256 → bytes.length = size →
      (s.inbox = .read offset size :: rest → step s = .refused .partialAccess)
        ∧ (s.inbox = .write offset bytes :: rest → step s = .refused .partialAccess)

/-- The register space is 256 bytes: an access that runs beyond it meets no address and stops (20_memory.md R60, R66; the
stop is the model's choice, log 14). -/
def Obligations.AccessesBeyondTheSpaceStop : Prop :=
  ∀ (s : State) (offset size : Nat) (bytes : List Byte) (rest : List HostAccess), 256 < offset + size →
    bytes.length = size →
      (s.inbox = .read offset size :: rest → step s = .fault .outsideRegisterSpace)
        ∧ (s.inbox = .write offset bytes :: rest → step s = .fault .outsideRegisterSpace)

/-- While `STATUS.BUSY` is 1 the host may read `STATUS` and nothing else (70_reset_and_hazards.md R239). What a step
answers in such a state is the model's reading (log 15): commands are atomic, and no run reaches a state with
`STATUS.BUSY` = 1 (the invariant excludes it). -/
def Obligations.BusyBlockAnswersStatusOnly : Prop :=
  ∀ (s : State) (r : Reg) (bytes : List Byte) (rest : List HostAccess), statusBusy s.status = true →
    r.existsIn s.params = true → bytes.length = r.size →
      (s.inbox = .read r.offset r.size :: rest →
        step s = if r = .status then .next { s with inbox := rest, readData := [s.status] } else .refused .busyAccess)
        ∧ (s.inbox = .write r.offset bytes :: rest → step s = .refused .busyAccess)

/-- Bytes of the register space at which no register of the build stands read 0 and ignore writes (20_memory.md R66). -/
def Obligations.ReservedBytesReadZero : Prop :=
  ∀ (s : State) (offset : Nat) (b : Byte) (rest : List HostAccess), offset < 256 → statusBusy s.status = false →
    (∀ r : Reg, r.existsIn s.params = true → r.overlaps offset 1 = false) →
      (s.inbox = .read offset 1 :: rest → step s = .next { s with inbox := rest, readData := [0x00] })
        ∧ (s.inbox = .write offset [b] :: rest → step s = .next { s with inbox := rest })

/-! ### Reset and time -/

/-- The reset's effect is the table of 10_state.md R49, whatever the state before, a command in progress too
(70_reset_and_hazards.md R230, R231). That the time input, the later accesses and the bytes of the last read survive it
is the model's choice (log 17). -/
def Obligations.ResetLeavesTheTable : Prop :=
  ∀ (s : State) (rest : List HostAccess), s.inbox = .reset :: rest →
    ∃ t, step s = .next t ∧ t.cmd = 0x00 ∧ t.status = 0x00 ∧ t.res.rvalid = 0x00 ∧ t.timer = none
      ∧ t.res = ⟨none, none, none, none, none, none, none, none⟩
      ∧ (∀ r : Reg, r.writable = true → readReg r t = 0)
      ∧ t.params = s.params ∧ t.now = s.now ∧ t.inbox = rest ∧ t.readData = s.readData

/-- What the first commands after reset do, in every build (70_reset_and_hazards.md R232). -/
def Obligations.FirstCommandsAfterReset : Prop :=
  ∀ p : Params,
    let s : State := { State.reset with params := p }
    (∃ t, exec .rrEnc s = .next t ∧ t.res.out = some ⟨#v[0, 0, 0, 0, 0, 0, 0, 0], BitVec.ofNat 8 (7 + p.rrPadLen.val)⟩)
      ∧ (∃ t, exec .tlmEnc s = .next t ∧ t.res.out = some ⟨#v[0, 0, 0, 0, 0, 0, 0, 0], 8⟩)
      ∧ (∃ t, exec .rrDec s = .next t ∧ t.status = 0x82)
      ∧ (∃ t, exec .tlmDec s = .next t ∧ t.status = 0x82)
      ∧ (∃ t, exec .valDec s = .next t ∧ t.status = 0x83)
      ∧ (∃ t, exec .fmtLookup s = .next t ∧ t.res.fmt = (Registry.formatOf p.registry 0).map WireFormat.code)
      ∧ (p.hasValEnc = true → ∃ t, exec .valEnc s = .next t ∧ t.res.out.isSome = (Registry.formatOf p.registry 0).isSome)
      ∧ (∃ t, exec .rrBuild s = .next t ∧ t.res.addr = some p.reqBase)
      ∧ (∃ t, exec .tmrCheck s = .next t ∧ t.status = 0x86)
      ∧ (∃ t, exec .tmrReset s = .next t ∧ t.status = 0x86)
      ∧ (p.hasVec2 = true → ∃ t, exec .vec2New s = .next t ∧ t.res.vec = some ⟨0x00000000, 0x00000000⟩)

/-- What `now()` answers never decreases from one step to a later one (10_state.md R44). -/
def Obligations.TimeNeverGoesBack : Prop :=
  ∀ s t : State, step s = .next t → s.now ≤ t.now

/-! ### The invariant -/

/-- The invariant of the block holds at reset, in every build (10_state.md R49; 93_implementation_defined.md U13). -/
def Obligations.InvariantHoldsAtReset : Prop :=
  ∀ p : Params, Inv { State.reset with params := p }

/-- Every step keeps the invariant: the status word is one a completed command leaves, every valid group holds what its
group may hold, the timer's period is not 0, absent units hold nothing (10_state.md R34, R37, R38; 42_value_registry.md
R163; 46_companion_vec2.md R180; 60_exceptions.md R191, R202, R211, R215; 93_implementation_defined.md U13). -/
def Obligations.EveryStepKeepsTheInvariant : Prop :=
  ∀ s t : State, Inv s → step s = .next t → Inv t
end

