-- ==== Sys2Proof/Laws/Bytes.lean ====
section
/-! SUPPORT. Byte order: a value is the value of its bytes, and bytes are the bytes of their value (20_memory.md R63);
narrowing to 16 bits and widening again (41_telemetry.md R147, 42_value_registry.md R168). -/

namespace Sys2Proof.Machine

@[simp] theorem le16_bytes (v : Half) : le16 (byteOf v 0) (byteOf v 1) = v := by
  apply BitVec.eq_of_getLsbD_eq
  intro i hi
  simp only [le16, byteOf, BitVec.getLsbD_append, BitVec.getLsbD_extractLsb']
  by_cases h : i < 8
  · simp [h]
  · simp [h, show i - 8 < 8 by omega, show 8 + (i - 8) = i by omega]

@[simp] theorem le32_bytes (v : Word) : le32 (byteOf v 0) (byteOf v 1) (byteOf v 2) (byteOf v 3) = v := by
  apply BitVec.eq_of_getLsbD_eq
  intro i hi
  simp only [le32, byteOf, BitVec.getLsbD_append, BitVec.getLsbD_extractLsb']
  by_cases h : i < 8
  · simp [h]
  by_cases h1 : i < 16
  · simp [h, show i - 8 < 8 by omega, show 8 + (i - 8) = i by omega]
  by_cases h2 : i < 24
  · simp [h, show ¬ i - 8 < 8 by omega, show i - 8 - 8 < 8 by omega, show 16 + (i - 8 - 8) = i by omega]
  · simp [h, show ¬ i - 8 < 8 by omega, show ¬ i - 8 - 8 < 8 by omega, show i - 8 - 8 - 8 < 8 by omega,
      show 24 + (i - 8 - 8 - 8) = i by omega]

@[simp] theorem byteOf_le16_0 (a b : Byte) : byteOf (le16 a b) 0 = a := by
  apply BitVec.eq_of_getLsbD_eq
  intro i hi
  simp only [le16, byteOf, BitVec.getLsbD_append, BitVec.getLsbD_extractLsb', hi, decide_true, Bool.true_and, Nat.mul_zero, Nat.zero_add]
  simp [hi]

@[simp] theorem byteOf_le16_1 (a b : Byte) : byteOf (le16 a b) 1 = b := by
  apply BitVec.eq_of_getLsbD_eq
  intro i hi
  simp only [le16, byteOf, BitVec.getLsbD_append, BitVec.getLsbD_extractLsb', hi, decide_true, Bool.true_and, Nat.reduceMul]
  simp [hi, show ¬ 8 + i < 8 by omega, show 8 + i - 8 = i by omega]

@[simp] theorem byteOf_le32_0 (a b c d : Byte) : byteOf (le32 a b c d) 0 = a := by
  apply BitVec.eq_of_getLsbD_eq
  intro i hi
  simp only [le32, byteOf, BitVec.getLsbD_append, BitVec.getLsbD_extractLsb', hi, decide_true, Bool.true_and, Nat.mul_zero, Nat.zero_add]
  simp [hi]

@[simp] theorem byteOf_le32_1 (a b c d : Byte) : byteOf (le32 a b c d) 1 = b := by
  apply BitVec.eq_of_getLsbD_eq
  intro i hi
  simp only [le32, byteOf, BitVec.getLsbD_append, BitVec.getLsbD_extractLsb', hi, decide_true, Bool.true_and, Nat.reduceMul]
  simp [hi, show ¬ 8 + i < 8 by omega, show 8 + i - 8 = i by omega]

@[simp] theorem byteOf_le32_2 (a b c d : Byte) : byteOf (le32 a b c d) 2 = c := by
  apply BitVec.eq_of_getLsbD_eq
  intro i hi
  simp only [le32, byteOf, BitVec.getLsbD_append, BitVec.getLsbD_extractLsb', hi, decide_true, Bool.true_and, Nat.reduceMul]
  simp [hi, show ¬ 16 + i < 8 by omega, show ¬ 16 + i - 8 < 8 by omega, show 16 + i - 8 - 8 = i by omega]

@[simp] theorem byteOf_le32_3 (a b c d : Byte) : byteOf (le32 a b c d) 3 = d := by
  apply BitVec.eq_of_getLsbD_eq
  intro i hi
  simp only [le32, byteOf, BitVec.getLsbD_append, BitVec.getLsbD_extractLsb', hi, decide_true, Bool.true_and, Nat.reduceMul]
  simp [hi, show ¬ 24 + i < 8 by omega, show ¬ 24 + i - 8 < 8 by omega, show ¬ 24 + i - 8 - 8 < 8 by omega, show 24 + i - 8 - 8 - 8 = i by omega]


theorem ofBytes_getLsbD (bs : List Byte) (i : Nat) (hi : i < 64) :
    (ofBytes bs).getLsbD i = (bs[i / 8]?.getD 0).getLsbD (i % 8) := by
  induction bs generalizing i with
  | nil => simp [ofBytes]
  | cons b bs ih =>
    simp only [ofBytes, BitVec.getLsbD_or, BitVec.getLsbD_setWidth, BitVec.getLsbD_shiftLeft]
    by_cases h : i < 8
    · simp [hi, h, show i / 8 = 0 by omega, Nat.mod_eq_of_lt h]
    · rw [ih _ (by omega)]
      obtain ⟨k, hk⟩ : ∃ k, i = k + 8 := ⟨i - 8, by omega⟩
      subst hk
      simp [hi]


theorem toBytes_ofBytes (bs : List Byte) (h : bs.length ≤ 8) : toBytes bs.length (ofBytes bs) = bs := by
  apply List.ext_getElem
  · simp [toBytes]
  · intro n h1 h2
    simp only [toBytes, List.getElem_map, List.getElem_range]
    apply BitVec.eq_of_getLsbD_eq
    intro i hi
    simp only [byteOf, BitVec.getLsbD_extractLsb', hi, decide_true, Bool.true_and]
    rw [ofBytes_getLsbD _ _ (by omega)]
    simp [show (8 * n + i) / 8 = n by omega, show (8 * n + i) % 8 = i by omega, h2]


@[simp] theorem length_toBytes (n : Nat) (v : BitVec 64) : (toBytes n v).length = n := by simp [toBytes]


theorem ofBytes_toBytes (n : Nat) (v : BitVec 64) (m : Nat) (hm : m ≤ 8 * n) :
    (ofBytes (toBytes n v)).setWidth m = v.setWidth m := by
  apply BitVec.eq_of_getLsbD_eq
  intro i hi
  simp only [BitVec.getLsbD_setWidth, hi, decide_true, Bool.true_and]
  by_cases h64 : i < 64
  · rw [ofBytes_getLsbD _ _ h64]
    simp [toBytes, show i / 8 < n by omega, byteOf, Nat.mod_lt, show 8 * (i / 8) + i % 8 = i by omega]
  · rw [BitVec.getLsbD_of_ge _ _ (by omega), BitVec.getLsbD_of_ge _ _ (by omega)]


theorem fitsSigned16_iff (v : Word) : fitsSigned16 v = true ↔ -32768 ≤ v.toInt ∧ v.toInt ≤ 32767 := by simp [fitsSigned16]

theorem fitsUnsigned16_iff (v : Word) : fitsUnsigned16 v = true ↔ v.toNat ≤ 65535 := by simp [fitsUnsigned16]

/-- The two low bytes of a 32-bit value are its low half (41_telemetry.md R141). -/
@[simp] theorem le16_bytes_word (v : Word) : le16 (byteOf v 0) (byteOf v 1) = v.setWidth 16 := by
  have h : ∀ i < 2, byteOf v i = byteOf (v.setWidth 16 : Half) i := by
    intro i hi
    apply BitVec.eq_of_getLsbD_eq
    intro j hj
    simp [byteOf, hj, show 8 * i + j < 16 by omega]
  rw [h 0 (by omega), h 1 (by omega), le16_bytes]

/-- Narrowing loses nothing of a number that fits (41_telemetry.md R147). -/
theorem signExtend_setWidth_of_fits {v : Word} (h : fitsSigned16 v = true) :
    (v.setWidth 16 : Half).signExtend 32 = v := by
  rw [fitsSigned16_iff] at h
  apply BitVec.eq_of_toInt_eq
  rw [BitVec.toInt_signExtend_of_le (by omega), BitVec.toInt_setWidth]
  rw [BitVec.toInt_eq_toNat_bmod] at h ⊢
  have := v.isLt
  simp only [Int.bmod] at h ⊢
  omega

@[simp] theorem fitsSigned16_signExtend (v : Half) : fitsSigned16 (v.signExtend 32) = true := by
  rw [fitsSigned16_iff, BitVec.toInt_signExtend_of_le (by omega)]
  have h1 := v.le_toInt
  have h2 := v.toInt_lt
  simp at h1 h2
  omega

@[simp] theorem setWidth_signExtend (v : Half) : (v.signExtend 32 : Word).setWidth 16 = v := by
  apply BitVec.eq_of_getLsbD_eq
  intro i hi
  rw [BitVec.getLsbD_setWidth, BitVec.getLsbD_signExtend]
  simp [hi, show i < 32 by omega]

/-- Narrowing loses nothing of an unsigned number that fits (42_value_registry.md R165). -/
theorem setWidth_setWidth_of_fits {v : Word} (h : fitsUnsigned16 v = true) :
    (v.setWidth 16 : Half).setWidth 32 = v := by
  rw [fitsUnsigned16_iff] at h
  apply BitVec.eq_of_toNat_eq
  simp [BitVec.toNat_setWidth]
  omega

@[simp] theorem fitsUnsigned16_setWidth (v : Half) : fitsUnsigned16 (v.setWidth 32) = true := by
  rw [fitsUnsigned16_iff, BitVec.toNat_setWidth]
  have := v.isLt
  omega

end Sys2Proof.Machine
end

