-- ==== Sys2Proof/Laws/Decode.lean ====
section
/-! SUPPORT. The accessors over byte 0 and the format codes, piece by piece (40_request_reply.md R110, 30_encoding.md R88). -/

namespace Sys2Proof

@[simp] theorem unpackOp_pack0 (op : BitVec 7) (s : Bool) : unpackOp (pack0 op s) = op := by
  revert op; cases s <;> decide

@[simp] theorem unpackSuccess_pack0 (op : BitVec 7) (s : Bool) : unpackSuccess (pack0 op s) = s := by
  revert op; cases s <;> decide

@[simp] theorem pack0_unpack (b : Byte) : pack0 (unpackOp b) (unpackSuccess b) = b := by
  revert b; decide

/-- An operation that fits 7 bits is its own low part (60_exceptions.md R192). -/
theorem pack0_unpackOp_of_lt {op : Byte} (h : op.toNat < 128) (b : Bool) :
    pack0 (unpackOp op) b = op ||| (if b then 0x80 else 0x00) := by
  revert op; cases b <;> decide

@[simp] theorem unpackOp_setWidth (op : BitVec 7) : unpackOp (op.setWidth 8) = op := by
  revert op; decide

theorem toNat_setWidth_op_lt (op : BitVec 7) : (op.setWidth 8 : Byte).toNat < 128 := by
  revert op; decide

@[simp] theorem ofCode_code (f : WireFormat) : WireFormat.ofCode f.code = f := by cases f <;> rfl

@[simp] theorem code_ofCode (c : BitVec 2) : (WireFormat.ofCode c).code = c := by revert c; decide

end Sys2Proof
end

