-- ==== Sys2Proof/Laws/Flags.lean ====
section
/-! SUPPORT. The fields of the status a completing command leaves, and valid bits after an invalidation. -/

namespace Sys2Proof.Machine

@[simp] theorem statusErr_statusDone (e : BitVec 4) (c : Bool) : statusErr (statusDone e c) = e := by
  revert e; cases c <;> decide

@[simp] theorem statusCatchup_statusDone (e : BitVec 4) (c : Bool) : statusCatchup (statusDone e c) = c := by
  revert e; cases c <;> decide

@[simp] theorem statusReserved_statusDone (e : BitVec 4) (c : Bool) : statusReserved (statusDone e c) = false := by
  revert e; cases c <;> decide

@[simp] theorem statusBusy_statusDone (e : BitVec 4) (c : Bool) : statusBusy (statusDone e c) = false := by
  revert e; cases c <;> decide

@[simp] theorem statusDoneBit_statusDone (e : BitVec 4) (c : Bool) : statusDoneBit (statusDone e c) = true := by
  revert e; cases c <;> decide

/-- A status a command leaves is a status between commands, if its code is one of the table and a catch-up is none. -/
theorem statusOk_statusDone {e : BitVec 4} {c : Bool} (he : e.toNat ≤ 6) (hc : c = true → e = 0) :
    StatusOk (statusDone e c) :=
  ⟨by simp, by simp, by simpa using he, by simpa using hc⟩

theorem CommandError.code_le (e : CommandError) : e.code.toNat ≤ 6 := by cases e <;> decide

theorem CommandError.code_ne_zero (e : CommandError) : e.code ≠ 0 := by cases e <;> decide

@[simp] theorem invalidateAll_nil (r : Results) : r.invalidateAll [] = r := rfl

@[simp] theorem invalidateAll_cons (r : Results) (g : Group) (gs : List Group) :
    r.invalidateAll (g :: gs) = (r.invalidate g).invalidateAll gs := rfl

/-- Invalidating a group clears its valid bit and no other. -/
theorem valid_invalidate (r : Results) (g h : Group) :
    (r.invalidate g).valid h = if h = g then false else r.valid h := by
  cases g <;> cases h <;> rfl

theorem valid_invalidateAll (r : Results) (gs : List Group) (h : Group) :
    (r.invalidateAll gs).valid h = if h ∈ gs then false else r.valid h := by
  induction gs generalizing r with
  | nil => simp
  | cons g gs ih => rw [invalidateAll_cons, ih, valid_invalidate]; by_cases h = g <;> by_cases h ∈ gs <;> simp_all

/-- `RVALID` bit by bit (10_state.md R36). -/
theorem rvalid_bits (r : Results) :
    r.rvalid.getLsbD 0 = r.out.isSome ∧ r.rvalid.getLsbD 1 = r.rr.isSome ∧ r.rvalid.getLsbD 2 = r.tlm.isSome
      ∧ r.rvalid.getLsbD 3 = r.val.isSome ∧ r.rvalid.getLsbD 4 = r.addr.isSome ∧ r.rvalid.getLsbD 5 = r.tmr.isSome
      ∧ r.rvalid.getLsbD 6 = r.vec.isSome ∧ r.rvalid.getLsbD 7 = r.fmt.isSome := by
  unfold Results.rvalid Results.valid
  generalize r.out.isSome = a, r.rr.isSome = b, r.tlm.isSome = c, r.val.isSome = d, r.addr.isSome = e,
    r.tmr.isSome = f, r.vec.isSome = g, r.fmt.isSome = h
  revert a b c d e f g h
  decide

end Sys2Proof.Machine
end

