-- ==== Sys2Proof/Laws/Frames.lean ====
section
/-! SUPPORT. The frames and payloads the codecs write and read, byte by byte (30_encoding.md R81, R87, R88). -/

namespace Sys2Proof.Machine

theorem vector8_eta {α : Type} (v : Vector α 8) : v = #v[v[0], v[1], v[2], v[3], v[4], v[5], v[6], v[7]] := by
  apply Vector.ext
  intro i hi
  rcases (by omega : i = 0 ∨ i = 1 ∨ i = 2 ∨ i = 3 ∨ i = 4 ∨ i = 5 ∨ i = 6 ∨ i = 7) with
    h | h | h | h | h | h | h | h <;> subst h <;> rfl

theorem vector4_eta {α : Type} (v : Vector α 4) : v = #v[v[0], v[1], v[2], v[3]] := by
  apply Vector.ext
  intro i hi
  rcases (by omega : i = 0 ∨ i = 1 ∨ i = 2 ∨ i = 3) with h | h | h | h <;> subst h <;> rfl

/-- The request/reply frame for both pad lengths (40_request_reply.md R112). -/
theorem rrFrame_eq (s : State) : rrFrame s =
    if s.params.rrPadLen = 1 then
      ⟨#v[pack0 (unpackOp s.ops.op) s.ops.succ, byteOf s.ops.vid 0, byteOf s.ops.vid 1, 0x00,
        s.ops.pay[0], s.ops.pay[1], s.ops.pay[2], s.ops.pay[3]], 8⟩
    else
      ⟨#v[pack0 (unpackOp s.ops.op) s.ops.succ, byteOf s.ops.vid 0, byteOf s.ops.vid 1,
        s.ops.pay[0], s.ops.pay[1], s.ops.pay[2], s.ops.pay[3], 0x00], 7⟩ := by
  obtain h | h : s.params.rrPadLen = 0 ∨ s.params.rrPadLen = 1 := by omega
  · simp only [rrFrame, rrLen, h]; rfl
  · simp only [rrFrame, rrLen, h]; rfl

/-- The payload of a received frame for both pad lengths (40_request_reply.md R115). -/
theorem framePayload_eq (s : State) : framePayload s =
    if s.params.rrPadLen = 1 then #v[s.ops.inBuf[4], s.ops.inBuf[5], s.ops.inBuf[6], s.ops.inBuf[7]]
    else #v[s.ops.inBuf[3], s.ops.inBuf[4], s.ops.inBuf[5], s.ops.inBuf[6]] := by
  obtain h | h : s.params.rrPadLen = 0 ∨ s.params.rrPadLen = 1 := by omega
  all_goals
    rw [h]; simp only [framePayload]
    apply Vector.ext; intro i hi
    simp only [Vector.getElem_ofFn, h, inByte]
    rcases (by omega : i = 0 ∨ i = 1 ∨ i = 2 ∨ i = 3) with h | h | h | h <;> subst h <;> rfl

/-- The telemetry frame (41_telemetry.md R141). -/
theorem telemetryFrame_eq (s : State) : telemetryFrame s =
    ⟨#v[byteOf s.ops.rpmIn[0] 0, byteOf s.ops.rpmIn[0] 1, byteOf s.ops.rpmIn[1] 0, byteOf s.ops.rpmIn[1] 1,
      byteOf s.ops.rpmIn[2] 0, byteOf s.ops.rpmIn[2] 1, byteOf s.ops.rpmIn[3] 0, byteOf s.ops.rpmIn[3] 1], 8⟩ := by
  rfl

/-- The channels of a received telemetry frame (41_telemetry.md R144). -/
theorem telemetryMessage_eq (s : State) : telemetryMessage s =
    ⟨#v[le16 s.ops.inBuf[0] s.ops.inBuf[1], le16 s.ops.inBuf[2] s.ops.inBuf[3],
      le16 s.ops.inBuf[4] s.ops.inBuf[5], le16 s.ops.inBuf[6] s.ops.inBuf[7]], s.now⟩ := by
  rfl

theorem rpmInRange_iff (s : State) :
    rpmInRange s = true ↔ ∀ k : Fin 4, fitsSigned16 (s.ops.rpmIn.get k) = true := by
  rw [rpmInRange, List.all_eq_true]
  constructor
  · intro h k; exact h _ (Vector.mem_toList_iff.mpr (Vector.getElem_mem k.isLt))
  · intro h x hx
    obtain ⟨k, hk, rfl⟩ := Vector.getElem_of_mem (Vector.mem_toList_iff.mp hx)
    exact h ⟨k, hk⟩

/-- The payload of a value under each format (42_value_registry.md R165). -/
theorem payloadFrame_eq (f : WireFormat) (v : Word) : payloadFrame f v =
    ⟨match f with
      | .signedShort16 | .unsignedShort16 => #v[byteOf v 0, byteOf v 1, 0, 0, 0, 0, 0, 0]
      | .float32 => #v[byteOf v 0, byteOf v 1, byteOf v 2, byteOf v 3, 0, 0, 0, 0]
      | .bool8 => #v[if v = 0 then 0x00 else 0x01, 0, 0, 0, 0, 0, 0, 0], 4⟩ := by
  cases f <;> rfl

end Sys2Proof.Machine
end

