-- ==== Sys2Proof/Laws/State.lean ====
section
/-! SUPPORT. One lemma per field of State per named update. -/

namespace Sys2Proof.Machine

section finish

@[simp] theorem finish_params (e : BitVec 4) (c : Bool) (s : State) : (finish e c s).params = s.params := rfl
@[simp] theorem finish_ops (e : BitVec 4) (c : Bool) (s : State) : (finish e c s).ops = s.ops := rfl
@[simp] theorem finish_cmd (e : BitVec 4) (c : Bool) (s : State) : (finish e c s).cmd = s.cmd := rfl
@[simp] theorem finish_status (e : BitVec 4) (c : Bool) (s : State) : (finish e c s).status = statusDone e c := rfl
@[simp] theorem finish_res (e : BitVec 4) (c : Bool) (s : State) : (finish e c s).res = s.res := rfl
@[simp] theorem finish_timer (e : BitVec 4) (c : Bool) (s : State) : (finish e c s).timer = s.timer := rfl
@[simp] theorem finish_now (e : BitVec 4) (c : Bool) (s : State) : (finish e c s).now = s.now := rfl
@[simp] theorem finish_draw (e : BitVec 4) (c : Bool) (s : State) : (finish e c s).draw = s.draw + 1 := rfl
@[simp] theorem finish_inbox (e : BitVec 4) (c : Bool) (s : State) : (finish e c s).inbox = s.inbox := rfl
@[simp] theorem finish_readData (e : BitVec 4) (c : Bool) (s : State) : (finish e c s).readData = s.readData := rfl

end finish

section raised

@[simp] theorem raised_params (e : CommandError) (gs : List Group) (s : State) : (raised e gs s).params = s.params := rfl
@[simp] theorem raised_ops (e : CommandError) (gs : List Group) (s : State) : (raised e gs s).ops = s.ops := rfl
@[simp] theorem raised_cmd (e : CommandError) (gs : List Group) (s : State) : (raised e gs s).cmd = s.cmd := rfl
@[simp] theorem raised_status (e : CommandError) (gs : List Group) (s : State) : (raised e gs s).status = statusDone e.code false := rfl
@[simp] theorem raised_res (e : CommandError) (gs : List Group) (s : State) : (raised e gs s).res = s.res.invalidateAll gs := rfl
@[simp] theorem raised_timer (e : CommandError) (gs : List Group) (s : State) : (raised e gs s).timer = s.timer := rfl
@[simp] theorem raised_now (e : CommandError) (gs : List Group) (s : State) : (raised e gs s).now = s.now := rfl
@[simp] theorem raised_draw (e : CommandError) (gs : List Group) (s : State) : (raised e gs s).draw = s.draw + 1 := rfl
@[simp] theorem raised_inbox (e : CommandError) (gs : List Group) (s : State) : (raised e gs s).inbox = s.inbox := rfl
@[simp] theorem raised_readData (e : CommandError) (gs : List Group) (s : State) : (raised e gs s).readData = s.readData := rfl

end raised

section writeReg

@[simp] theorem writeReg_params (r : Reg) (v : BitVec 64) (s : State) : (writeReg r v s).params = s.params := rfl
@[simp] theorem writeReg_ops (r : Reg) (v : BitVec 64) (s : State) : (writeReg r v s).ops = writeOperand r v s.ops := rfl
@[simp] theorem writeReg_cmd (r : Reg) (v : BitVec 64) (s : State) : (writeReg r v s).cmd = s.cmd := rfl
@[simp] theorem writeReg_status (r : Reg) (v : BitVec 64) (s : State) : (writeReg r v s).status = s.status := rfl
@[simp] theorem writeReg_res (r : Reg) (v : BitVec 64) (s : State) : (writeReg r v s).res = s.res := rfl
@[simp] theorem writeReg_timer (r : Reg) (v : BitVec 64) (s : State) : (writeReg r v s).timer = s.timer := rfl
@[simp] theorem writeReg_now (r : Reg) (v : BitVec 64) (s : State) : (writeReg r v s).now = s.now := rfl
@[simp] theorem writeReg_draw (r : Reg) (v : BitVec 64) (s : State) : (writeReg r v s).draw = s.draw := rfl
@[simp] theorem writeReg_inbox (r : Reg) (v : BitVec 64) (s : State) : (writeReg r v s).inbox = s.inbox := rfl
@[simp] theorem writeReg_readData (r : Reg) (v : BitVec 64) (s : State) : (writeReg r v s).readData = s.readData := rfl

end writeReg

section advanceTime

@[simp] theorem advanceTime_params (t : Tick) (s : State) : (advanceTime t s).params = s.params := rfl
@[simp] theorem advanceTime_ops (t : Tick) (s : State) : (advanceTime t s).ops = s.ops := rfl
@[simp] theorem advanceTime_cmd (t : Tick) (s : State) : (advanceTime t s).cmd = s.cmd := rfl
@[simp] theorem advanceTime_status (t : Tick) (s : State) : (advanceTime t s).status = s.status := rfl
@[simp] theorem advanceTime_res (t : Tick) (s : State) : (advanceTime t s).res = s.res := rfl
@[simp] theorem advanceTime_timer (t : Tick) (s : State) : (advanceTime t s).timer = s.timer := rfl
@[simp] theorem advanceTime_now (t : Tick) (s : State) : (advanceTime t s).now = if s.now.toNat ≤ t.toNat then t else s.now := rfl
@[simp] theorem advanceTime_draw (t : Tick) (s : State) : (advanceTime t s).draw = s.draw := rfl
@[simp] theorem advanceTime_inbox (t : Tick) (s : State) : (advanceTime t s).inbox = s.inbox := rfl
@[simp] theorem advanceTime_readData (t : Tick) (s : State) : (advanceTime t s).readData = s.readData := rfl

end advanceTime

section applyReset

@[simp] theorem applyReset_params (s : State) : (applyReset s).params = s.params := rfl
@[simp] theorem applyReset_ops (s : State) : (applyReset s).ops = .reset := rfl
@[simp] theorem applyReset_cmd (s : State) : (applyReset s).cmd = 0 := rfl
@[simp] theorem applyReset_status (s : State) : (applyReset s).status = 0 := rfl
@[simp] theorem applyReset_res (s : State) : (applyReset s).res = .reset := rfl
@[simp] theorem applyReset_timer (s : State) : (applyReset s).timer = none := rfl
@[simp] theorem applyReset_now (s : State) : (applyReset s).now = s.now := rfl
@[simp] theorem applyReset_draw (s : State) : (applyReset s).draw = s.draw + 1 := rfl
@[simp] theorem applyReset_inbox (s : State) : (applyReset s).inbox = s.inbox := rfl
@[simp] theorem applyReset_readData (s : State) : (applyReset s).readData = s.readData := rfl

end applyReset

section placeCommand

@[simp] theorem placeCommand_params (c : Byte) (s : State) : (placeCommand c s).params = s.params := rfl
@[simp] theorem placeCommand_ops (c : Byte) (s : State) : (placeCommand c s).ops = s.ops := rfl
@[simp] theorem placeCommand_cmd (c : Byte) (s : State) : (placeCommand c s).cmd = s.cmd := rfl
@[simp] theorem placeCommand_status (c : Byte) (s : State) : (placeCommand c s).status = s.status &&& 0xBF := rfl
@[simp] theorem placeCommand_res (c : Byte) (s : State) : (placeCommand c s).res = s.res := rfl
@[simp] theorem placeCommand_timer (c : Byte) (s : State) : (placeCommand c s).timer = s.timer := rfl
@[simp] theorem placeCommand_now (c : Byte) (s : State) : (placeCommand c s).now = s.now := rfl
@[simp] theorem placeCommand_draw (c : Byte) (s : State) : (placeCommand c s).draw = s.draw := rfl
@[simp] theorem placeCommand_inbox (c : Byte) (s : State) : (placeCommand c s).inbox = .write Reg.cmd.offset [c] :: s.inbox := rfl
@[simp] theorem placeCommand_readData (c : Byte) (s : State) : (placeCommand c s).readData = s.readData := rfl

end placeCommand

end Sys2Proof.Machine
end

