-- ==== Sys2Proof/Laws/Exec.lean ====
section
/-! SUPPORT. What the shared operations of the commands can do, said once each, and what a command can do at all: proofs
about commands cite these and never unfold a meaning. -/

namespace Sys2Proof.Machine

/-! ### The shared operations -/

theorem ifPresent_of_present {b : Bool} (h : b = true) (m : State → Result) (s : State) : ifPresent b m s = m s := by
  simp [ifPresent, h]

theorem ifPresent_of_absent {b : Bool} (h : b = false) (m : State → Result) (s : State) :
    ifPresent b m s = .next (raised .illegalCommand [] s) := by
  simp [ifPresent, h, illegalCommand, raise]

theorem lengthIs_iff (n : Nat) (s : State) : lengthIs n s = true ↔ s.ops.inLen.toNat = n := by simp [lengthIs]

theorem deliver_of_length {s : State} (h : s.ops.inLen.toNat = rrLen s.params) (op f c) :
    deliver op f c s = .next (finish 0 false { s with res := { s.res with rr := some (message op f c s) } }) := by
  simp [deliver, lengthIs, h, succeed]

theorem deliver_of_wrong_length {s : State} (h : s.ops.inLen.toNat ≠ rrLen s.params) (op f c) :
    deliver op f c s = .next (raised .malformedPacket [.rr] s) := by
  simp [deliver, lengthIs, h, raise]

theorem interpret_of_length {s : State} (h : s.ops.inLen.toNat = 4) (fmt v) :
    interpret fmt v s = .next (tagged fmt v s) := by
  simp [interpret, lengthIs, h, Config.payLen]

theorem interpret_of_wrong_length {s : State} (h : s.ops.inLen.toNat ≠ 4) (fmt v) :
    interpret fmt v s = .next (raised .invalidPayloadLength [.val] s) := by
  simp [interpret, lengthIs, h, Config.payLen, raise]

/-- The class by code (40_request_reply.md R111). -/
theorem opclass_eq (op : BitVec 7) : opclass op =
    if op = 0 then 0 else if op = 1 then 1 else if op = 2 then 2 else if op = 3 then 3 else 4 := by
  revert op; decide

theorem opclass_of_reserved {op : BitVec 7} (h : 4 ≤ op.toNat) : opclass op = 4 := by
  revert op; decide

/-! ### What a command can do -/

/-- What a command may leave (10_state.md R36, 60_exceptions.md R195, R196): an error of its own; an illegal command; or
a success, which fills the groups it owns and no other, touches the timer only if it is a timer command, and reports a
catch-up only if it is TMR_CHECK. -/
inductive Answer (i : Instr) (s : State) : State → Prop where
  | error (e : CommandError) (he : e ≠ .illegalCommand) : Answer i s (raised e (ownedGroups i) s)
  | illegal (why : unitPresent s.params i = false ∨ ((i = .tmrCheck ∨ i = .tmrReset) ∧ s.timer = none)) :
    Answer i s (raised .illegalCommand [] s)
  | success (res : Results) (timer : Option Timer) (c : Bool) (present : unitPresent s.params i = true)
    (created : i = .tmrCheck ∨ i = .tmrReset → s.timer.isSome = true)
    (own : ∀ g ∈ ownedGroups i, res.valid g = true)
    (other : ∀ g ∉ ownedGroups i, sameGroup s { s with res := res } g)
    (timerKept : i ∉ [.tmrInit, .tmrCheck, .tmrReset] → timer = s.timer)
    (catchup : c = true → i = .tmrCheck) :
    Answer i s (finish 0 c { s with res := res, timer := timer })

/-- A success that leaves the timer alone. -/
theorem Answer.ok {i : Instr} {s t : State} (res : Results) (present : unitPresent s.params i = true)
    (created : i = .tmrCheck ∨ i = .tmrReset → s.timer.isSome = true)
    (h : finish 0 false { s with res := res } = t) (own : ∀ g ∈ ownedGroups i, res.valid g = true)
    (other : ∀ g ∉ ownedGroups i, sameGroup s { s with res := res } g) : Answer i s t :=
  h ▸ .success res s.timer false present created own other (fun _ => rfl) (by simp)

theorem Answer.err {i : Instr} {s t : State} (e : CommandError) (he : e ≠ .illegalCommand) {gs : List Group}
    (hg : gs = ownedGroups i) (h : raised e gs s = t) : Answer i s t := by
  subst hg; exact h ▸ .error e he

theorem sameGroup_refl (s : State) (g : Group) : sameGroup s { s with res := s.res } g := by cases g <;> rfl

theorem answer_deliver {i : Instr} {s t : State} {op f c} (h : deliver op f c s = .next t) (ho : ownedGroups i = [.rr])
    (hu : unitPresent s.params i = true) (hi : i ≠ .tmrCheck ∧ i ≠ .tmrReset) : Answer i s t := by
  by_cases hl : s.ops.inLen.toNat = rrLen s.params
  · rw [deliver_of_length hl, Host.Outcome.next.injEq] at h
    refine .ok _ hu (by simp [hi]) h ?_ ?_ <;> rw [ho]
    · simp [Results.valid]
    · intro g hg; cases g <;> first | rfl | (simp at hg)
  · rw [deliver_of_wrong_length hl, Host.Outcome.next.injEq] at h
    exact .err _ (by simp) ho.symm h

theorem answer_tagged {i : Instr} {s t : State} {fmt v} (h : tagged fmt v s = t) (ho : ownedGroups i = [.val])
    (hu : unitPresent s.params i = true) (hi : i ≠ .tmrCheck ∧ i ≠ .tmrReset) : Answer i s t := by
  refine .ok _ hu (by simp [hi]) h ?_ ?_ <;> rw [ho]
  · simp [Results.valid]
  · intro g hg; cases g <;> first | rfl | (simp at hg)

theorem answer_interpret {i : Instr} {s t : State} {fmt v} (h : interpret fmt v s = .next t)
    (ho : ownedGroups i = [.val]) (hu : unitPresent s.params i = true) (hi : i ≠ .tmrCheck ∧ i ≠ .tmrReset) :
    Answer i s t := by
  by_cases hl : s.ops.inLen.toNat = 4
  · rw [interpret_of_length hl, Host.Outcome.next.injEq] at h
    exact answer_tagged h ho hu hi
  · rw [interpret_of_wrong_length hl, Host.Outcome.next.injEq] at h
    exact .err _ (by simp) ho.symm h

theorem answer_ifPresent {i : Instr} {s t : State} {m : State → Result}
    (h : ifPresent (unitPresent s.params i) m s = .next t)
    (hm : unitPresent s.params i = true → m s = .next t → Answer i s t) : Answer i s t := by
  cases hu : unitPresent s.params i
  · rw [ifPresent_of_absent hu, Host.Outcome.next.injEq] at h
    exact h ▸ .illegal (.inl hu)
  · rw [ifPresent_of_present hu] at h
    exact hm hu h

/-- A command that answers a next state answers one of these. -/
theorem exec_answer {i : Instr} {s t : State} (h : exec i s = .next t) : Answer i s t := by
  cases i with
  | rrEnc =>
    simp only [exec, execRrEnc, raise, succeed] at h
    split at h <;> rw [Host.Outcome.next.injEq] at h
    · exact .err _ (by simp) rfl h
    · refine .ok _ rfl (by simp) h (by simp [ownedGroups, Results.valid]) ?_
      intro g hg; cases g <;> first | rfl | (simp [ownedGroups] at hg)
  | rrBuild =>
    simp only [exec, execRrBuild, raise, succeed] at h
    split at h <;> rw [Host.Outcome.next.injEq] at h
    · exact .err _ (by simp) rfl h
    · refine .ok _ rfl (by simp) h (by simp [ownedGroups, Results.valid]) ?_
      intro g hg; cases g <;> first | rfl | (simp [ownedGroups] at hg)
  | tlmEnc =>
    simp only [exec, execTlmEnc, raise, succeed] at h
    split at h <;> rw [Host.Outcome.next.injEq] at h
    · refine .ok _ rfl (by simp) h (by simp [ownedGroups, Results.valid]) ?_
      intro g hg; cases g <;> first | rfl | (simp [ownedGroups] at hg)
    · exact .err _ (by simp) rfl h
  | tlmDec =>
    simp only [exec, execTlmDec, raise, succeed] at h
    split at h <;> rw [Host.Outcome.next.injEq] at h
    · refine .ok _ rfl (by simp) h (by simp [ownedGroups, Results.valid]) ?_
      intro g hg; cases g <;> first | rfl | (simp [ownedGroups] at hg)
    · exact .err _ (by simp) rfl h
  | fmtLookup =>
    simp only [exec, execFmtLookup, Host.Outcome.next.injEq] at h
    split at h
    · exact .err _ (by simp) rfl h
    · refine .ok _ rfl (by simp) h (by simp [ownedGroups, Results.valid]) ?_
      intro g hg; cases g <;> first | rfl | (simp [ownedGroups] at hg)
  | valDec =>
    simp only [exec, execValDec, Host.Outcome.next.injEq] at h
    split at h
    · split at h
      · exact .err _ (by simp) rfl h
      · exact answer_tagged h rfl rfl (by simp)
    · exact .err _ (by simp) rfl h
  | valEnc =>
    refine answer_ifPresent h fun hu h => ?_
    simp only [valEncPresent, Host.Outcome.next.injEq] at h
    split at h
    · exact .err _ (by simp) rfl h
    · split at h
      · refine .ok _ hu (by simp) h (by simp [ownedGroups, Results.valid]) ?_
        intro g hg; cases g <;> first | rfl | (simp [ownedGroups] at hg)
      · exact .err _ (by simp) rfl h
  | tmrInit =>
    refine answer_ifPresent h fun hu h => ?_
    simp only [tmrInitPresent, raise] at h
    split at h <;> rw [Host.Outcome.next.injEq] at h
    · exact .err _ (by simp) rfl h
    · exact h ▸ .success s.res _ false hu (by simp) (by simp [ownedGroups]) (fun g _ => sameGroup_refl s g) (by simp) (by simp)
  | tmrCheck =>
    refine answer_ifPresent h fun hu h => ?_
    simp only [tmrCheckPresent, illegalCommand, raise] at h
    split at h
    · rename_i ht
      rw [Host.Outcome.next.injEq] at h
      exact h ▸ .illegal (.inr ⟨.inl rfl, ht⟩)
    · rename_i ht
      simp only [checkTimer] at h
      split_ifs at h <;> rw [Host.Outcome.next.injEq] at h
      · refine h ▸ .success _ _ _ hu (by simp [ht]) (by simp [ownedGroups, Results.valid]) ?_ (by simp) (fun _ => rfl)
        intro g hg; cases g <;> first | rfl | (simp [ownedGroups] at hg)
      · refine .ok _ hu (by simp [ht]) h (by simp [ownedGroups, Results.valid]) ?_
        intro g hg; cases g <;> first | rfl | (simp [ownedGroups] at hg)
  | tmrReset =>
    refine answer_ifPresent h fun hu h => ?_
    simp only [tmrResetPresent, illegalCommand, raise] at h
    split at h
    · rename_i ht
      rw [Host.Outcome.next.injEq] at h
      exact h ▸ .illegal (.inr ⟨.inr rfl, ht⟩)
    · rename_i ht
      split_ifs at h
      rw [Host.Outcome.next.injEq] at h
      exact h ▸ .success s.res _ false hu (by simp [ht]) (by simp [ownedGroups]) (fun g _ => sameGroup_refl s g) (by simp) (by simp)
  | vec2New =>
    refine answer_ifPresent h fun hu h => ?_
    rw [vec2NewPresent, succeed, Host.Outcome.next.injEq] at h
    refine .ok _ hu (by simp) h (by simp [ownedGroups, Results.valid]) ?_
    intro g hg; cases g <;> first | rfl | (simp [ownedGroups] at hg)
  | rrDec | noOp | read | write | store | reserved => exact answer_deliver h rfl rfl (by simp)
  | signedShort16 | unsignedShort16 | float32 | bool8 => exact answer_interpret h rfl rfl (by simp)

end Sys2Proof.Machine
end

