-- ==== Sys2Proof/Laws/HostPort.lean ====
section
/-! SUPPORT. The register map and what serving an access can do (20_memory.md R66, R67). -/

namespace Sys2Proof.Machine

/-! ### The map -/

theorem Reg.mem_all (r : Reg) : r ∈ Reg.all := by
  cases r with
  | pay i | rpmIn i | inBuf i | outBuf i | rPay i | rRpm i => simp [Reg.all]
  | _ => simp [Reg.all]

/-- The list follows the map upwards, and a register ends before the next begins. -/
theorem Reg.all_rising : Reg.all.Pairwise fun a b => a.offset + a.size ≤ b.offset ∧ a ≠ b := by decide

/-- Every register stands once in the list. -/
theorem Reg.filter_all (r : Reg) : Reg.all.filter (· == r) = [r] := by
  rw [List.filter_beq, List.count_eq_one_of_mem (Reg.all_rising.imp fun h => h.2) r.mem_all]
  rfl

/-- Two registers share no byte (20_memory.md R66). -/
theorem Reg.eq_of_overlaps {r q : Reg} (h : q.overlaps r.offset r.size = true) : q = r := by
  have key := List.Pairwise.forall_of_forall_of_flip
    (R := fun a b : Reg => a.offset + a.size ≤ b.offset ∨ b.offset + b.size ≤ a.offset ∨ a = b)
    (fun _ _ => Or.inr (.inr rfl)) (Reg.all_rising.imp fun h => Or.inl h.1)
    (Reg.all_rising.imp fun h => Or.inr (.inl h.1)) r.mem_all q.mem_all
  simp only [Reg.overlaps, decide_eq_true_eq] at h
  rcases key with k | k | k
  · omega
  · omega
  · exact k.symm

theorem Reg.overlaps_self (r : Reg) : r.overlaps r.offset r.size = true := by
  have key : ∀ r ∈ Reg.all, r.overlaps r.offset r.size = true := by decide
  exact key r r.mem_all

theorem Reg.offset_add_size_le (r : Reg) : r.offset + r.size ≤ Config.spaceSize := by
  have key : ∀ r ∈ Reg.all, r.offset + r.size ≤ Config.spaceSize := by decide
  exact key r r.mem_all

theorem Reg.size_le (r : Reg) : r.size ≤ 8 ∧ r.bits ≤ 8 * r.size := by
  have key : ∀ r ∈ Reg.all, r.size ≤ 8 ∧ r.bits ≤ 8 * r.size := by decide
  exact key r r.mem_all

/-- The registers an access of exactly one whole register meets. -/
theorem filter_whole {p : Params} {r : Reg} (h : r.existsIn p = true) :
    (Reg.all.filter fun q => q.existsIn p && q.overlaps r.offset r.size) = [r] := by
  have : (Reg.all.filter fun q => q.existsIn p && q.overlaps r.offset r.size) = Reg.all.filter (· == r) := by
    apply List.filter_congr
    intro q _
    by_cases hq : q = r
    · subst hq; simp [h, q.overlaps_self]
    · have hno : q.overlaps r.offset r.size = false := by
        rw [← Bool.not_eq_true]; exact fun hh => hq (Reg.eq_of_overlaps hh)
      simp [hno, hq]
  rw [this, Reg.filter_all]

/-- An access of exactly one whole register that exists (20_memory.md R67). -/
theorem target_whole {p : Params} {r : Reg} (h : r.existsIn p = true) : target p r.offset r.size = .whole r := by
  simp [target, filter_whole h]

/-- Where an access meets a whole register, it is that register's own place. -/
theorem target_eq_whole {p : Params} {offset size : Nat} {r : Reg} (h : target p offset size = .whole r) :
    r.existsIn p = true ∧ r.offset = offset ∧ r.size = size := by
  unfold target at h
  split at h
  · split at h <;> cases h
  · rename_i q hq
    split at h
    · rename_i ho
      cases h
      have : r ∈ Reg.all.filter fun q => q.existsIn p && q.overlaps offset size := by rw [hq]; simp
      simp only [List.mem_filter, Bool.and_eq_true] at this
      exact ⟨this.2.1, ho.1, ho.2⟩
    · cases h
  · cases h

/-! ### Serving an access -/

/-- What issuing a code can do: the command it selects, or an illegal command. -/
theorem issue_next {code : Byte} {s t : State} (h : issue code s = .next t) :
    (∃ i, decode .cmd8 code = .ok i ∧ exec i { s with cmd := code } = .next t)
      ∨ (∃ e, decode .cmd8 code = .error e) ∧ t = raised .illegalCommand [] { s with cmd := code } := by
  unfold issue at h
  split at h
  · exact .inl ⟨_, ‹_›, h⟩
  · rw [illegalCommand, raise, Host.Outcome.next.injEq] at h
    exact .inr ⟨⟨_, ‹_›⟩, h.symm⟩

theorem hostWrite_cmd (v : BitVec 64) (s : State) : hostWrite .cmd v s = issue (v.setWidth 8) s := rfl

theorem hostWrite_of_ne {r : Reg} (h : r ≠ .cmd) (v : BitVec 64) (s : State) : hostWrite r v s = .next (writeReg r v s) := by
  unfold hostWrite; split
  · exact absurd rfl h
  · rfl

/-- What serving a write can do (20_memory.md R66, R67; 10_state.md R33). -/
theorem serveWrite_next {offset : Nat} {data : List Byte} {s t : State} (h : serveWrite offset data s = .next t) :
    statusBusy s.status = false
      ∧ (t = s ∨ (∃ r v, r ≠ Reg.cmd ∧ r.existsIn s.params = true ∧ t = writeReg r v s) ∨ ∃ code, issue code s = .next t) := by
  unfold serveWrite forbiddenWhileBusy at h
  cases hb : statusBusy s.status <;> simp only [hb, Bool.not_false, Bool.and_true, Bool.false_eq_true,
    if_false, if_true] at h
  · refine ⟨rfl, ?_⟩
    split at h
    · cases h
    · split at h
      · rename_i r hr
        by_cases hc : r = .cmd
        · subst hc; exact .inr (.inr ⟨_, h⟩)
        · rw [hostWrite_of_ne hc, Host.Outcome.next.injEq] at h
          exact .inr (.inl ⟨r, _, hc, (target_eq_whole hr).1, h.symm⟩)
      · rw [Host.Outcome.next.injEq] at h; exact .inl h.symm
      · cases h
  · split at h
    · cases h
    · split at h <;> cases h

/-- What serving a read can do: it changes what the read returns. -/
theorem serveRead_next {offset size : Nat} {s t : State} (h : serveRead offset size s = .next t) :
    ∃ d, t = { s with readData := d } := by
  unfold serveRead at h
  split at h
  · cases h
  · split at h
    · split at h
      · cases h
      · rw [Host.Outcome.next.injEq] at h; exact ⟨_, h.symm⟩
    · split at h
      · cases h
      · rw [Host.Outcome.next.injEq] at h; exact ⟨_, h.symm⟩
    · cases h

/-- A read of a whole register of an idle block. -/
theorem serveRead_whole {s : State} {r : Reg} (he : r.existsIn s.params = true)
    (hb : statusBusy s.status = false ∨ r = .status) :
    serveRead r.offset r.size s = .next { s with readData := toBytes r.size (readReg r s) } := by
  simp only [serveRead, if_neg (Nat.not_lt.mpr r.offset_add_size_le), target_whole he, forbiddenWhileBusy]
  rcases hb with hb | hb <;> simp [hb]

/-- What a read answers does not depend on the accesses to come. -/
@[simp] theorem readReg_inbox (r : Reg) (s : State) (accesses : List HostAccess) :
    readReg r { s with inbox := accesses } = readReg r s := by
  cases r <;> rfl

/-- A step that serves a read of a whole register of an idle block. -/
theorem step_read_whole {s : State} {r : Reg} (he : r.existsIn s.params = true) (hb : statusBusy s.status = false)
    (rest : List HostAccess) :
    step { s with inbox := .read r.offset r.size :: rest }
      = .next { s with inbox := rest, readData := toBytes r.size (readReg r s) } := by
  simp only [step, serve]
  rw [serveRead_whole (s := { s with inbox := rest }) he (.inl hb), readReg_inbox]

/-- A write of a whole register of an idle block. -/
theorem serveWrite_whole {s : State} {r : Reg} {bytes : List Byte} (he : r.existsIn s.params = true)
    (hb : statusBusy s.status = false) (hl : bytes.length = r.size) :
    serveWrite r.offset bytes s = hostWrite r (ofBytes bytes) s := by
  simp only [serveWrite, hl, if_neg (Nat.not_lt.mpr r.offset_add_size_le), target_whole he, forbiddenWhileBusy, hb]
  rfl

/-- What a register holds after a host write: the low bits of its width (20_memory.md R66). -/
theorem readReg_writeReg {r : Reg} (hw : r.writable = true) (v : BitVec 64) (s : State) :
    readReg r (writeReg r v s) = (v.setWidth r.bits).setWidth 64 := by
  have bit : (BitVec.ofBool (v.getLsbD 0)).setWidth 64 = (v.setWidth 1).setWidth 64 := by
    congr 1
    apply BitVec.eq_of_getLsbD_eq
    intro i hi
    obtain rfl : i = 0 := by omega
    simp
  cases r with
  | succ => simpa [readReg, rawValue, writeReg, writeOperand, Reg.bits] using bit
  | dir => simpa [readReg, rawValue, writeReg, writeOperand, Reg.bits] using bit
  | inLen | op | vid | pay | node | valIn | rpmIn | inBuf | periodIn | vxIn | vyIn =>
    simp [readReg, rawValue, writeReg, writeOperand, Reg.bits, Vector.get_eq_getElem]
  | _ => simp [Reg.writable] at hw

theorem step_of_cons {s : State} {a : HostAccess} {rest : List HostAccess} (h : s.inbox = a :: rest) :
    step s = serve a { s with inbox := rest } := by
  rw [step, h]

/-- What a step can do. -/
inductive Stepped (s : State) : State → Prop where
  | idle : Stepped s s
  | served (rest : List HostAccess) (d : List Byte) : Stepped s { s with inbox := rest, readData := d }
  | wrote (rest : List HostAccess) (r : Reg) (v : BitVec 64) (hr : r ≠ .cmd) (he : r.existsIn s.params = true) :
    Stepped s (writeReg r v { s with inbox := rest })
  | ran (rest : List HostAccess) (code : Byte) (i : Instr) (t : State)
    (h : exec i { s with inbox := rest, cmd := code } = .next t) : Stepped s t
  | illegal (rest : List HostAccess) (code : Byte) :
    Stepped s (raised .illegalCommand [] { s with inbox := rest, cmd := code })
  | reset (rest : List HostAccess) : Stepped s (applyReset { s with inbox := rest })
  | time (rest : List HostAccess) (now : Tick) : Stepped s (advanceTime now { s with inbox := rest })

/-- A step that answers a next state did one of these. -/
theorem step_stepped {s t : State} (h : step s = .next t) : Stepped s t := by
  unfold step at h
  split at h
  · rw [Host.Outcome.next.injEq] at h; exact h ▸ .idle
  · rename_i a rest _
    cases a with
    | reset => simp only [serve, Host.Outcome.next.injEq] at h; exact h ▸ .reset rest
    | time now => simp only [serve, Host.Outcome.next.injEq] at h; exact h ▸ .time rest now
    | read offset size =>
      obtain ⟨d, rfl⟩ := serveRead_next h
      exact .served rest d
    | write offset data =>
      obtain ⟨-, rfl | ⟨r, v, hr, he, rfl⟩ | ⟨code, hc⟩⟩ := serveWrite_next h
      · exact .served rest s.readData
      · exact .wrote rest r v hr he
      · obtain ⟨i, -, hi⟩ | ⟨-, rfl⟩ := issue_next hc
        · exact .ran rest code i t hi
        · exact .illegal rest code

end Sys2Proof.Machine
end

