-- ==== Sys2Proof/Laws/PerInstr.lean ====
section
/-! SUPPORT. Statements for every instruction, one lemma per constructor: the round trip of the encoder and the
decoder. -/

namespace Sys2Proof.Laws.RoundTrip

/-- Decoding the word of a well-formed row in the row's own format gives the row back (30_encoding.md R83, R88, R95). -/
def Statement (i : Instr) : Prop := i.wf = true → decode i.format (encode i) = .ok i

theorem rrEnc : Statement .rrEnc := fun _ => rfl
theorem rrDec : Statement .rrDec := fun _ => rfl
theorem rrBuild : Statement .rrBuild := fun _ => rfl
theorem tlmEnc : Statement .tlmEnc := fun _ => rfl
theorem tlmDec : Statement .tlmDec := fun _ => rfl
theorem fmtLookup : Statement .fmtLookup := fun _ => rfl
theorem valDec : Statement .valDec := fun _ => rfl
theorem valEnc : Statement .valEnc := fun _ => rfl
theorem tmrInit : Statement .tmrInit := fun _ => rfl
theorem tmrCheck : Statement .tmrCheck := fun _ => rfl
theorem tmrReset : Statement .tmrReset := fun _ => rfl
theorem vec2New : Statement .vec2New := fun _ => rfl
theorem noOp (success : Bool) : Statement (.noOp success) := by cases success <;> exact fun _ => rfl
theorem read (success : Bool) : Statement (.read success) := by cases success <;> exact fun _ => rfl
theorem write (success : Bool) : Statement (.write success) := by cases success <;> exact fun _ => rfl
theorem store (success : Bool) : Statement (.store success) := by cases success <;> exact fun _ => rfl

theorem reserved (success : Bool) (operation : BitVec 7) : Statement (.reserved success operation) := by
  intro hi
  simp only [Instr.wf, decide_eq_true_eq] at hi
  have h0 : operation ≠ 0 := by rintro rfl; simp at hi
  have h1 : operation ≠ 1 := by rintro rfl; simp at hi
  have h2 : operation ≠ 2 := by rintro rfl; simp at hi
  have h3 : operation ≠ 3 := by rintro rfl; simp at hi
  simp only [Instr.format, decode, encode, decodeByte0, unpackOp_pack0, unpackSuccess_pack0, h0, h1, h2, h3, if_false]

theorem signedShort16 : Statement .signedShort16 := fun _ => rfl
theorem unsignedShort16 : Statement .unsignedShort16 := fun _ => rfl
theorem float32 : Statement .float32 := fun _ => rfl
theorem bool8 : Statement .bool8 := fun _ => rfl

end Sys2Proof.Laws.RoundTrip
end

