-- ==== Sys2Proof/Laws/PeriodicTimer.lean ====
section
/-! SUPPORT. What a check of a timer and a realignment can do (60_exceptions.md R213, R217). -/

namespace Sys2Proof.Machine

theorem isDue_iff (t : Timer) (time : Tick) : isDue t time = true ↔ t.deadline ≤ time := by
  simp [isDue, BitVec.le_def]

theorem fitsTick_iff (n : Nat) : fitsTick n = true ↔ n < 2 ^ 64 := by simp [fitsTick]

theorem period_pos {t : Timer} (h : t.period ≠ 0) : 0 < t.period.toNat :=
  Nat.pos_of_ne_zero fun hh => h (BitVec.eq_of_toNat_eq hh)

theorem tmrCheckPresent_of_none {s : State} (h : s.timer = none) :
    tmrCheckPresent s = .next (raised .illegalCommand [] s) := by
  simp only [tmrCheckPresent, h]; rfl

theorem tmrCheckPresent_of_some {s : State} {t : Timer} (h : s.timer = some t) : tmrCheckPresent s = checkTimer t s := by
  simp only [tmrCheckPresent, h]

theorem tmrResetPresent_of_none {s : State} (h : s.timer = none) :
    tmrResetPresent s = .next (raised .illegalCommand [] s) := by
  simp only [tmrResetPresent, h]; rfl

theorem tmrResetPresent_of_fits {s : State} {t : Timer} (h : s.timer = some t) (hf : realigned t s.now < 2 ^ 64) :
    tmrResetPresent s =
      .next (finish 0 false { s with timer := some { t with deadline := BitVec.ofNat 64 (realigned t s.now) } }) := by
  have hn : fitsTick (realigned t s.now) = true := (fitsTick_iff _).mpr hf
  simp only [tmrResetPresent, h, now, hn, if_true]

theorem tmrResetPresent_of_overflow {s : State} {t : Timer} (h : s.timer = some t) (hf : 2 ^ 64 ≤ realigned t s.now) :
    tmrResetPresent s = .fault .deadlineOverflow := by
  have hn : ¬ fitsTick (realigned t s.now) = true := by rw [fitsTick_iff]; exact Nat.not_lt.mpr hf
  simp only [tmrResetPresent, h, now]
  exact if_neg hn

/-- A check before the deadline. -/
theorem checkTimer_of_early {t : Timer} {s : State} (h : s.now < t.deadline) : checkTimer t s = .next (notYet s) := by
  have : ¬ isDue t (now s) = true := by rw [isDue_iff, BitVec.not_le]; exact h
  rw [checkTimer, if_neg this]

/-- A check of a due timer whose next deadline is a tick count. -/
theorem checkTimer_of_due {t : Timer} {s : State} (hp : t.period ≠ 0) (h : t.deadline ≤ s.now)
    (hf : nextDeadline t s.now < 2 ^ 64) : checkTimer t s = .next (fire t s) := by
  have hd : isDue t (now s) = true := (isDue_iff t s.now).mpr h
  have hn : fitsTick (nextDeadline t (now s)) = true := (fitsTick_iff _).mpr hf
  rw [checkTimer, if_pos hd, if_neg hp, if_pos hn]

/-- A check of a due timer whose next deadline is none. -/
theorem checkTimer_of_overflow {t : Timer} {s : State} (hp : t.period ≠ 0) (h : t.deadline ≤ s.now)
    (hf : 2 ^ 64 ≤ nextDeadline t s.now) : checkTimer t s = .fault .deadlineOverflow := by
  have hd : isDue t (now s) = true := (isDue_iff t s.now).mpr h
  have hn : ¬ fitsTick (nextDeadline t (now s)) = true := by rw [fitsTick_iff]; exact Nat.not_lt.mpr hf
  rw [checkTimer, if_pos hd, if_neg hp, if_neg hn]

/-- The next deadline is the first one of the timer's phase that is later than the time (60_exceptions.md R214). -/
theorem nextDeadline_bounds {t : Timer} {time : Tick} (hp : t.period ≠ 0) (h : t.deadline ≤ time) :
    time.toNat < nextDeadline t time ∧ nextDeadline t time ≤ time.toNat + t.period.toNat := by
  have hmod := Nat.div_add_mod (time.toNat - t.deadline.toNat) t.period.toNat
  have hlt := Nat.mod_lt (time.toNat - t.deadline.toNat) (period_pos hp)
  have hle : t.deadline.toNat ≤ time.toNat := h
  have hn : nextDeadline t time = t.deadline.toNat
      + t.period.toNat * ((time.toNat - t.deadline.toNat) / t.period.toNat) + t.period.toNat := by
    rw [nextDeadline, missedPeriods]; ring
  omega

theorem missedPeriods_lt (t : Timer) (time : Tick) : missedPeriods t time < 2 ^ 64 := by
  have h1 := Nat.div_le_self (time.toNat - t.deadline.toNat) t.period.toNat
  have h2 := time.isLt
  rw [missedPeriods]
  omega

end Sys2Proof.Machine
end

