-- ==== Sys2Proof/Laws/Vec2.lean ====
section
/-! SUPPORT. The numerical order of binary32 patterns and the clamp (46_companion_vec2.md R182, R183). -/

namespace Sys2Proof.Machine

theorem isNaN_iff (v : Word) : isNaN v = true ↔ v.extractLsb' 23 8 = 0xFF#8 ∧ v.extractLsb' 0 23 ≠ 0#23 := by
  have h1 : floatExponent v = 255 ↔ v.extractLsb' 23 8 = 0xFF#8 := by rw [← BitVec.toNat_inj]; rfl
  have h2 : floatFraction v = 0 ↔ v.extractLsb' 0 23 = 0#23 := by rw [← BitVec.toNat_inj]; rfl
  simp only [isNaN, decide_eq_true_eq, h1, ne_eq, h2]

/-- The magnitude of the low 31 bits of a pattern, read as a number. -/
def magnitudeOf (n : Nat) : Nat :=
  if n / 2 ^ 23 = 0 then n % 2 ^ 23 else (2 ^ 23 + n % 2 ^ 23) * 2 ^ (n / 2 ^ 23 - 1)

theorem floatMagnitude_eq (v : Word) : floatMagnitude v = magnitudeOf (v.setWidth 31 : BitVec 31).toNat := by
  have h1 : floatExponent v = (v.toNat % 2 ^ 31) / 2 ^ 23 := by
    simp only [floatExponent, BitVec.extractLsb'_toNat, Nat.shiftRight_eq_div_pow]; omega
  have h2 : floatFraction v = (v.toNat % 2 ^ 31) % 2 ^ 23 := by
    simp only [floatFraction, BitVec.extractLsb'_toNat, Nat.shiftRight_eq_div_pow]; omega
  rw [floatMagnitude, h1, h2, BitVec.toNat_setWidth, magnitudeOf]

/-- A larger pattern has the larger magnitude. -/
theorem magnitudeOf_lt {a b : Nat} (h : a < b) : magnitudeOf a < magnitudeOf b := by
  unfold magnitudeOf
  have ha : a = 2 ^ 23 * (a / 2 ^ 23) + a % 2 ^ 23 := (Nat.div_add_mod a (2 ^ 23)).symm
  have hb : b = 2 ^ 23 * (b / 2 ^ 23) + b % 2 ^ 23 := (Nat.div_add_mod b (2 ^ 23)).symm
  have fa : a % 2 ^ 23 < 2 ^ 23 := Nat.mod_lt _ (by decide)
  have fb : b % 2 ^ 23 < 2 ^ 23 := Nat.mod_lt _ (by decide)
  generalize a / 2 ^ 23 = ea at *
  generalize b / 2 ^ 23 = eb at *
  generalize a % 2 ^ 23 = xa at *
  generalize b % 2 ^ 23 = xb at *
  rcases Nat.eq_or_lt_of_le (by omega : ea ≤ eb) with rfl | hlt
  · split
    · omega
    · exact (Nat.mul_lt_mul_right (Nat.two_pow_pos _)).mpr (by omega)
  · rw [if_neg (show eb ≠ 0 by omega)]
    split
    · calc xa < 2 ^ 23 * 1 := by omega
        _ ≤ (2 ^ 23 + xb) * 2 ^ (eb - 1) := Nat.mul_le_mul (by omega) (Nat.two_pow_pos _)
    · calc (2 ^ 23 + xa) * 2 ^ (ea - 1) < 2 ^ 24 * 2 ^ (ea - 1) :=
            (Nat.mul_lt_mul_right (Nat.two_pow_pos _)).mpr (by omega)
        _ = 2 ^ 23 * 2 ^ ea := by rw [← pow_add, ← pow_add]; congr 1; omega
        _ ≤ 2 ^ 23 * 2 ^ (eb - 1) := Nat.mul_le_mul_left _ (Nat.pow_le_pow_right (by decide) (by omega))
        _ ≤ (2 ^ 23 + xb) * 2 ^ (eb - 1) := Nat.mul_le_mul_right _ (by omega)

theorem floatNumber_one : floatNumber floatOne = 2 ^ 149 := by decide

theorem floatNumber_minusOne : floatNumber floatMinusOne = -2 ^ 149 := by decide

/-- A magnitude beyond 1.0 is a pattern beyond that of 1.0. -/
theorem one_lt_floatMagnitude_iff (v : Word) :
    2 ^ 149 < floatMagnitude v ↔ 0x3F800000 < (v.setWidth 31 : BitVec 31).toNat := by
  have one : magnitudeOf 0x3F800000 = 2 ^ 149 := by decide
  rw [floatMagnitude_eq, ← one]
  refine ⟨fun h => ?_, magnitudeOf_lt⟩
  by_contra hh
  rcases Nat.lt_or_eq_of_le (Nat.le_of_not_lt hh) with h1 | h1
  · exact absurd (magnitudeOf_lt h1) (by omega)
  · rw [h1] at h; omega

/-- A clamped component is in the clamp range, whatever the draw (46_companion_vec2.md R180, R183). -/
theorem inClampRange_clamp (draw v : Word) : inClampRange (clamp draw v) = true := by
  unfold clamp
  split
  · split
    · assumption
    · simp [inClampRange, *]
  · simp only [clampNumber]
    split
    · decide
    · split
      · decide
      · simp only [inClampRange, Bool.or_eq_true, decide_eq_true_eq]; right; omega

theorem isNaN_clamp {draw v : Word} (h : isNaN v = false) : isNaN (clamp draw v) = false := by
  simp only [clamp, h, clampNumber, Bool.false_eq_true, if_false]
  split
  · decide
  · split
    · decide
    · exact h

end Sys2Proof.Machine
end

