-- ==== Sys2Proof/Tests/Slice0.lean ====
section
/-! SUPPORT. Tests on fixed values. Expected results are the spec's: the codes of 30_encoding.md R83, R88, R95 and
the vectors of 95_test_vectors.md named in each comment. -/

namespace Sys2Proof.Tests

open Sys2Proof Sys2Proof.Machine

/-! ### Well-formedness: the one check refuses a reserved row on a named code (R125) -/

theorem test_wf_refuses_named_code : (Instr.reserved true 3).wf = false := by decide
theorem test_wf_accepts_first_reserved_code : (Instr.reserved true 4).wf = true := by decide

/-! ### Decoding: words written out from the spec's encodings -/

theorem test_decode_rr_enc : decode .cmd8 0b00000001 = .ok .rrEnc := by rfl
theorem test_decode_rr_dec : decode .cmd8 0b00000010 = .ok .rrDec := by rfl
theorem test_decode_rr_build : decode .cmd8 0b00000011 = .ok .rrBuild := by rfl
theorem test_decode_tlm_enc : decode .cmd8 0b00000100 = .ok .tlmEnc := by rfl
theorem test_decode_tlm_dec : decode .cmd8 0b00000101 = .ok .tlmDec := by rfl
theorem test_decode_fmt_lookup : decode .cmd8 0b00000110 = .ok .fmtLookup := by rfl
theorem test_decode_val_dec : decode .cmd8 0b00000111 = .ok .valDec := by rfl
theorem test_decode_val_enc : decode .cmd8 0b00001000 = .ok .valEnc := by rfl
theorem test_decode_tmr_init : decode .cmd8 0b00010000 = .ok .tmrInit := by rfl
theorem test_decode_tmr_check : decode .cmd8 0b00010001 = .ok .tmrCheck := by rfl
theorem test_decode_tmr_reset : decode .cmd8 0b00010010 = .ok .tmrReset := by rfl
theorem test_decode_vec2_new : decode .cmd8 0b00011000 = .ok .vec2New := by rfl
theorem test_decode_noop : decode .rrByte0 0b10000000 = .ok (.noOp true) := by rfl
theorem test_decode_read : decode .rrByte0 0b10000001 = .ok (.read true) := by rfl
theorem test_decode_write : decode .rrByte0 0b00000010 = .ok (.write false) := by rfl
theorem test_decode_store : decode .rrByte0 0b10000011 = .ok (.store true) := by rfl
theorem test_decode_reserved : decode .rrByte0 0b11111111 = .ok (.reserved true 127) := by rfl
theorem test_decode_signed : decode .valFmt 0b00 = .ok .signedShort16 := by rfl
theorem test_decode_unsigned : decode .valFmt 0b01 = .ok .unsignedShort16 := by rfl
theorem test_decode_float : decode .valFmt 0b10 = .ok .float32 := by rfl
theorem test_decode_bool : decode .valFmt 0b11 = .ok .bool8 := by rfl
/-- V-IC-1. -/
theorem test_decode_zero_is_illegal : decode .cmd8 0x00 = .error (.illegalCommand 0x00) := by rfl

/-! ### Fixtures (95_test_vectors.md section 2) -/

/-- `TEST_REGISTRY`. -/
def testRegistry : Registry :=
  [(0x0001, .unsignedShort16), (0x0002, .signedShort16), (0x0003, .float32), (0x0004, .bool8)]

/-- The test build: the constants of section 2, every unit present. -/
def testParams (pad : Fin 2) : Params := ⟨pad, true, true, true, 0x600, 0x580, testRegistry⟩

/-- A block of the test build right after reset, with operand registers as given and a time. -/
def block (ops : Operands) (now : Tick := 0) (pad : Fin 2 := 1) : State :=
  { State.reset with params := testParams pad, ops := ops, now := now }

/-- `IN_LEN` and `IN_BUF[0..7]` written after reset. -/
def received (len : Byte) (b : Vector Byte 8) : Operands :=
  { Operands.reset with inLen := len, inBuf := Vector.ofFn fun i => if h : i.val < 8 then b[i.val] else 0 }

/-- The state a meaning answers, if it answers one. -/
def after (r : Result) : Option State :=
  match r with
  | .next t => some t
  | .fault _ => none
  | .refused _ => none

/-! ### RR_ENC (3.1) -/

/-- V-RE-1, both pad lengths. -/
theorem test_rr_enc_read_reply :
    ∀ pad : Fin 2, (after (exec .rrEnc (block { Operands.reset with op := 1, succ := true, vid := 0x1234, pay := #v[0xDC, 0x05, 0, 0] }
      (pad := pad)))).map (fun t => (t.res.out, t.status, t.res.rvalid))
      = some (some (if pad = 1 then ⟨#v[0x81, 0x34, 0x12, 0x00, 0xDC, 0x05, 0x00, 0x00], 8⟩
          else ⟨#v[0x81, 0x34, 0x12, 0xDC, 0x05, 0x00, 0x00, 0x00], 7⟩), 0x80, 0x01) := by decide

/-- V-RE-8: a wide operation is refused and the group is invalid. -/
theorem test_rr_enc_wide_operation :
    (after (exec .rrEnc { block { Operands.reset with op := 0x80, vid := 1 } with
        res := { Results.reset with out := some ⟨#v[1, 2, 3, 4, 5, 6, 7, 8], 8⟩ } })).map
      (fun t => (t.res.out, t.status, t.res.rvalid)) = some (none, 0x81, 0x00) := by decide

/-! ### RR_DEC (3.2) -/

/-- V-RD-2: the pad byte is ignored, `now()` = 1000 is stamped. -/
theorem test_rr_dec_ignores_pad :
    (after (exec .rrDec (block (received 8 #v[0x81, 0x34, 0x12, 0xAA, 0xDC, 0x05, 0x00, 0x00]) 1000))).map
      (fun t => (t.res.rr, t.status)) = some (some ⟨1, true, 1, 0x1234, #v[0xDC, 0x05, 0, 0], 1000⟩, 0x80) := by decide

/-- V-RD-9. -/
theorem test_rr_dec_wrong_length :
    (after (exec .rrDec (block (received 9 #v[0x81, 0x34, 0x12, 0x00, 0xDC, 0x05, 0x00, 0x00]) 1000))).map
      (fun t => (t.res.rr, t.status)) = some (none, 0x82) := by decide

/-! ### RR_BUILD (3.3) -/

/-- V-RB-6: the reply base, a node that is not validated. -/
theorem test_rr_build_reply :
    (after (exec .rrBuild (block { Operands.reset with dir := true, node := 0xFFFF0000, op := 1, vid := 1 }))).map
      (fun t => (t.res.addr, t.res.out, t.res.rvalid))
      = some (some 0xFFFF0580, some ⟨#v[1, 1, 0, 0, 0, 0, 0, 0], 8⟩, 0x11) := by decide

/-- V-RB-7: both groups invalid. -/
theorem test_rr_build_wide_operation :
    (after (exec .rrBuild (block { Operands.reset with node := 5, op := 0x80, vid := 0x10 }))).map
      (fun t => (t.res.addr, t.res.out, t.status)) = some (none, none, 0x81) := by decide

/-! ### The operation codes (3.2) -/

/-- V-RD-6's byte 0. -/
theorem test_noop_row :
    (after (exec (.noOp true) (block (received 8 #v[0x80, 0, 0, 0, 0, 0, 0, 0]) 1000))).map (fun t => t.res.rr)
      = some (some ⟨0, true, 0, 0, #v[0, 0, 0, 0], 1000⟩) := by decide

/-- V-RD-1's byte 0. -/
theorem test_read_row :
    (after (exec (.read true) (block (received 8 #v[0x81, 0x34, 0x12, 0, 0xDC, 0x05, 0, 0]) 1000))).map (fun t => t.res.rr)
      = some (some ⟨1, true, 1, 0x1234, #v[0xDC, 0x05, 0, 0], 1000⟩) := by decide

/-- P4's first frame. -/
theorem test_write_row :
    (after (exec (.write true) (block (received 8 #v[0x82, 2, 0, 0, 0x18, 0xFC, 0, 0]) 100))).map (fun t => t.res.rr)
      = some (some ⟨2, true, 2, 2, #v[0x18, 0xFC, 0, 0], 100⟩) := by decide

/-- V-RD-7's byte 0. -/
theorem test_store_row :
    (after (exec (.store false) (block (received 8 #v[0x03, 0x54, 0, 0, 0, 0, 0x80, 0x3F]) 1000))).map (fun t => t.res.rr)
      = some (some ⟨3, false, 3, 0x54, #v[0, 0, 0x80, 0x3F], 1000⟩) := by decide

/-- V-RD-3's byte 0. -/
theorem test_reserved_row :
    (after (exec (.reserved true 127) (block (received 8 #v[0xFF, 0xFF, 0xFF, 0, 0xFF, 0xFF, 0xFF, 0xFF]) 1000))).map
      (fun t => t.res.rr) = some (some ⟨127, true, 4, 0xFFFF, #v[0xFF, 0xFF, 0xFF, 0xFF], 1000⟩) := by decide

/-! ### TLM_ENC and TLM_DEC (3.4, 3.5) -/

/-- V-TE-3. -/
theorem test_tlm_enc_extremes :
    (after (exec .tlmEnc (block { Operands.reset with rpmIn := #v[0xFFFF8000, 0x00007FFF, 0xFFFFFFFF, 1] }))).map
      (fun t => (t.res.out, t.status)) = some (some ⟨#v[0x00, 0x80, 0xFF, 0x7F, 0xFF, 0xFF, 0x01, 0x00], 8⟩, 0x80) := by
  decide

/-- V-TE-7 and V-TE-8: -32769 and 65535 do not fit. -/
theorem test_tlm_enc_refuses :
    (after (exec .tlmEnc (block { Operands.reset with rpmIn := #v[0, 0, 0, 0xFFFF7FFF] }))).map (fun t => (t.res.out, t.status))
        = some (none, 0x85)
      ∧ (after (exec .tlmEnc (block { Operands.reset with rpmIn := #v[0xFFFF, 0, 0, 0] }))).map (fun t => (t.res.out, t.status))
        = some (none, 0x85) := by decide

/-- V-TD-1. -/
theorem test_tlm_dec :
    (after (exec .tlmDec (block (received 8 #v[0xDC, 0x05, 0x24, 0xFA, 0, 0, 0xFF, 0x7F]) 2000))).map
      (fun t => (t.res.tlm, t.res.rvalid)) = some (some ⟨#v[0x05DC, 0xFA24, 0, 0x7FFF], 2000⟩, 0x04) := by decide

/-- V-TD-5. -/
theorem test_tlm_dec_wrong_length :
    (after (exec .tlmDec (block (received 7 #v[0, 0, 0, 0, 0, 0, 0, 0]) 2000))).map (fun t => (t.res.tlm, t.status))
      = some (none, 0x82) := by decide

/-! ### The registry commands (3.6 to 3.8) -/

/-- V-FL-3. -/
theorem test_fmt_lookup :
    (after (exec .fmtLookup (block { Operands.reset with vid := 3 }))).map (fun t => (t.res.fmt, t.res.rvalid, t.status))
      = some (some 2, 0x80, 0x80) := by decide

/-- V-FL-5. -/
theorem test_fmt_lookup_unregistered :
    (after (exec .fmtLookup (block { Operands.reset with vid := 0x7777 }))).map (fun t => (t.res.fmt, t.status))
      = some (none, 0x84) := by decide

/-- V-VD-4. -/
theorem test_val_dec_signed :
    (after (exec .valDec (block { received 4 #v[0x18, 0xFC, 0, 0, 0, 0, 0, 0] with vid := 2 }))).map (fun t => t.res.val)
      = some (some ⟨0, 0xFFFFFC18⟩) := by decide

/-- V-VD-9: length before lookup. -/
theorem test_val_dec_length_first :
    (after (exec .valDec (block { received 3 #v[0xDC, 0x05, 0, 0, 0, 0, 0, 0] with vid := 0x7777 }))).map (fun t => t.status)
      = some 0x83 := by decide

/-- V-VD-5. -/
theorem test_signed_row :
    (after (exec .signedShort16 (block (received 4 #v[0x00, 0x80, 0, 0, 0, 0, 0, 0])))).map (fun t => t.res.val)
      = some (some ⟨0, 0xFFFF8000⟩) := by decide

/-- V-VD-3: pads ignored. -/
theorem test_unsigned_row :
    (after (exec .unsignedShort16 (block (received 4 #v[0xDC, 0x05, 0xAA, 0xBB, 0, 0, 0, 0])))).map (fun t => t.res.val)
      = some (some ⟨1, 0x000005DC⟩) := by decide

/-- V-VD-8: a NaN, bit for bit. -/
theorem test_float_row :
    (after (exec .float32 (block (received 4 #v[0x01, 0x00, 0xC0, 0x7F, 0, 0, 0, 0])))).map (fun t => t.res.val)
      = some (some ⟨2, 0x7FC00001⟩) := by decide

/-- V-VD-15 and V-VD-16. -/
theorem test_bool_row :
    (after (exec .bool8 (block (received 4 #v[2, 0, 0, 0, 0, 0, 0, 0])))).map (fun t => t.res.val) = some (some ⟨3, 1⟩)
      ∧ (after (exec .bool8 (block (received 4 #v[0, 1, 0, 0, 0, 0, 0, 0])))).map (fun t => t.res.val)
        = some (some ⟨3, 0⟩) := by decide

/-- V-VE-13. -/
theorem test_val_enc_bool :
    (after (exec .valEnc (block { Operands.reset with vid := 4, valIn := 0x100 }))).map (fun t => (t.res.out, t.status))
      = some (some ⟨#v[1, 0, 0, 0, 0, 0, 0, 0], 4⟩, 0x80) := by decide

/-- V-VE-4 and V-VE-16: range after lookup. -/
theorem test_val_enc_refuses :
    (after (exec .valEnc (block { Operands.reset with vid := 1, valIn := 0xFFFFFFFF }))).map (fun t => t.status) = some 0x85
      ∧ (after (exec .valEnc (block { Operands.reset with vid := 0x7777, valIn := 0xFFFFFFFF }))).map (fun t => t.status)
        = some 0x84 := by decide

/-! ### The timer (3.10) -/

/-- A block with a timer. -/
def timed (period deadline now : Tick) : State := { block .reset now with timer := some ⟨period, deadline⟩ }

/-- V-TM-1 (the deadline is open) and V-TM-0c. -/
theorem test_tmr_init :
    (after (exec .tmrInit (block { Operands.reset with periodIn := 1000 }))).map
        (fun t => (t.timer.map Timer.period, t.status)) = some (some 1000, 0x80)
      ∧ (after (exec .tmrInit (block .reset))).map (fun t => (t.timer, t.status)) = some (none, 0x85) := by decide

/-- V-TM-3. -/
theorem test_tmr_check_catches_up :
    (after (exec .tmrCheck (timed 1000 5000 6500))).map (fun t => (t.res.tmr, t.timer, t.status))
      = some (some ⟨true, 1⟩, some ⟨1000, 7000⟩, 0x90) := by decide

/-- V-TM-2a, and V-TM-0. -/
theorem test_tmr_check_quiet :
    (after (exec .tmrCheck (timed 1000 5000 4999))).map (fun t => (t.res.tmr, t.timer, t.status))
        = some (some ⟨false, 0⟩, some ⟨1000, 5000⟩, 0x80)
      ∧ (after (exec .tmrCheck (block .reset))).map (fun t => (t.timer, t.status)) = some (none, 0x86) := by decide

/-- V-TM-6. -/
theorem test_tmr_reset :
    (after (exec .tmrReset (timed 1000 7000 12345))).map (fun t => (t.timer, t.res.tmr, t.status))
      = some (some ⟨1000, 13345⟩, none, 0x80) := by decide

/-! ### Vec2 (3.11) -/

/-- V-VC-1. -/
theorem test_vec2_clamps :
    (after (exec .vec2New (block { Operands.reset with vxIn := 0x40200000, vyIn := 0xC0400000 }))).map
      (fun t => (t.res.vec, t.res.rvalid)) = some (some ⟨0x3F800000, 0xBF800000⟩, 0x40) := by decide

/-- V-VC-4, and V-VC-5. -/
theorem test_vec2_edges :
    (after (exec .vec2New (block { Operands.reset with vxIn := 0x3F800001, vyIn := 0x3F7FFFFF }))).map (fun t => t.res.vec)
        = some (some ⟨0x3F800000, 0x3F7FFFFF⟩)
      ∧ (after (exec .vec2New (block { Operands.reset with vxIn := 0x7F800000, vyIn := 0xFF800000 }))).map (fun t => t.res.vec)
        = some (some ⟨0x3F800000, 0xBF800000⟩) := by decide

/-! ### Steps: the host's accesses (R66, R67) and V-IC-6, V-RS-2 -/

/-- One pending access on the test build. -/
def pending (a : HostAccess) (s : State) : State := { s with inbox := [a] }

/-- P1's `WR32 0x10 0x00000005`. -/
theorem test_step_writes_node :
    (after (step (pending (.write 0x10 [5, 0, 0, 0]) (block .reset)))).map (fun t => t.ops.node) = some 5 := by decide

/-- R66: `VID` reads back little-endian. -/
theorem test_step_reads_vid :
    (after (step (pending (.read 0x08 2) (block { Operands.reset with vid := 0x1234 })))).map (fun t => t.readData)
      = some [0x34, 0x12] := by decide

/-- R67: half of `VID` is refused. -/
theorem test_step_refuses_half_register :
    (match step (pending (.read 0x08 1) (block .reset)) with | .refused r => some r | _ => none) = some .partialAccess := by
  decide

/-- V-RS-2: the command of code 0x01 right after reset. -/
theorem test_step_runs_rr_enc :
    (after (step (pending (.write 0x00 [0x01]) (block .reset)))).map (fun t => (t.cmd, t.res.out, t.status, t.res.rvalid))
      = some (0x01, some ⟨#v[0, 0, 0, 0, 0, 0, 0, 0], 8⟩, 0x80, 0x01) := by decide

/-- V-IC-2: an illegal code completes with error 6. -/
theorem test_step_illegal_code :
    (after (step (pending (.write 0x00 [0xFF]) (block .reset)))).map (fun t => (t.cmd, t.status, t.res.rvalid))
      = some (0xFF, 0x86, 0x00) := by decide

/-- A placed word runs right after reset: byte 0 = 0x81 is a Read (S-2). -/
theorem test_fetch_word_read :
    (after (step (State.reset.withFetchWord 8 0x81))).map (fun t => (t.res.rr.map RrGroup.op, t.res.rr.map RrGroup.cls))
      = some (some 1, some 1) := by decide

/-- A placed 2-bit word runs right after reset: 0b10 is Float32 (R88). -/
theorem test_fetch_word_float :
    (after (step (State.reset.withFetchWord 2 0b10))).map (fun t => t.res.val) = some (some ⟨2, 0⟩) := by decide

/-! ### Host programs (R102) -/

/-- `LOAD_FRAME` leaves the bytes it is not given (R101). -/
theorem test_load_frame :
    loadFrame [0x81, 0x34] = [.wr (.inBuf 0) 0x81, .wr (.inBuf 1) 0x34, .wr .inLen 2] := by decide

/-- P5's first loop (95_test_vectors.md section 5): not due at 4500, due at 5002. The time source moves between lines. -/
theorem test_paced_loop :
    (after (runProgram [.label "loop", .cmd .tmrCheck, .ifGoto .rFired 1 0 true "loop"]
        [4000, 4500, 4500, 4500, 5002, 5002] 0 (timed 1000 5000 4000))).map
      (fun t => (t.res.tmr, t.timer.map Timer.deadline)) = some (some ⟨true, 0⟩, some 6000) := by decide

/-- The ROM tool reports id 84 with both names (R243). -/
theorem test_build_rom_reports_collision :
    (match buildRom [("PTO_DEF_RPM", 84, .signedShort16), ("PTO_GEAR_RATIO", 84, .float32)] with
      | .error e => some e
      | .ok _ => none) = some ("PTO_DEF_RPM", "PTO_GEAR_RATIO", 84) := by decide

/-! ### Witnesses: states and operands that meet every hypothesis of a statement, one for each clause -/

/-- A step of a command that completes: the hypothesis `exec i s = .next t` with some facts about `t`. -/
def completes (i : Instr) (s : State) (facts : State → Bool) : Bool :=
  match exec i s with
  | .next t => facts t
  | .fault _ => false
  | .refused _ => false

theorem witness_DecodeOfEncodeIsTheInstruction :
    (Instr.reserved true 4).wf = true ∧ (Instr.reserved false 127).wf = true ∧ Instr.vec2New.wf = true := by decide

theorem witness_EncodeOfDecodeIsTheWord :
    decode .cmd8 0x18 = .ok .vec2New ∧ decode .rrByte0 0xFF = .ok (.reserved true 127)
      ∧ decode .valFmt 3 = .ok .bool8 := ⟨rfl, rfl, rfl⟩

theorem witness_StepRunsTheCommandWritten :
    (pending (.write 0x00 [0x01]) (block .reset)).inbox = .write 0x00 [0x01] :: []
      ∧ statusBusy (pending (.write 0x00 [0x01]) (block .reset)).status = false ∧ decode .cmd8 0x01 = .ok .rrEnc :=
  ⟨rfl, rfl, rfl⟩

theorem witness_NothingPendingChangesNothing : (block .reset).inbox = [] := rfl

/-- A build without the optional units. -/
def bareParams : Params := ⟨1, false, false, false, 0x600, 0x580, testRegistry⟩

/-- 0x00 and 0x09 with every unit, 0x08, 0x12 and 0x18 without. -/
theorem witness_IllegalCodesChangeNoGroup :
    statusBusy (block .reset).status = false
      ∧ (∀ code ∈ ([0x00, 0x09, 0x0F, 0x13, 0x17, 0x19, 0xFF] : List Byte),
        code ∉ ([0x01, 0x02, 0x03, 0x04, 0x05, 0x06, 0x07] : List Byte) ∧ code ≠ 0x08
          ∧ (code ≠ 0x10 ∧ code ≠ 0x11 ∧ code ≠ 0x12) ∧ code ≠ 0x18)
      ∧ bareParams.hasValEnc = false ∧ bareParams.hasTimer = false ∧ bareParams.hasVec2 = false
      ∧ ∀ code ∈ ([0x08, 0x10, 0x11, 0x12, 0x18] : List Byte),
        code ∉ ([0x01, 0x02, 0x03, 0x04, 0x05, 0x06, 0x07] : List Byte) := by decide

theorem witness_PlacedTableWordRunsAtTheNextStep :
    decodeTableWord 8 0x18 = some .vec2New ∧ decodeTableWord 8 0x81 = some (.read true)
      ∧ decodeTableWord 2 0b11 = some .bool8 := ⟨rfl, rfl, rfl⟩

theorem witness_RrDecRunsTheRowOfByteZero :
    decode .rrByte0 ((received 8 #v[0x81, 0, 0, 0, 0, 0, 0, 0]).inBuf.get 0) = .ok (.read true) := rfl

theorem witness_ValDecRunsTheRowOfTheFormat : Registry.formatOf testRegistry 0x0003 = some .float32 := by decide

/-- The operand `OP` at the edge of its 7 bits. -/
def withOp (op : Byte) : State := block { Operands.reset with op := op, succ := true, vid := 0x1234, pay := #v[1, 2, 3, 4] }

theorem witness_RrEncWritesTheFrame :
    (withOp 127).ops.op.toNat < 128 ∧ 128 ≤ (withOp 128).ops.op.toNat := by decide

theorem witness_RrEncIsInjectiveOntoZeroPadFrames :
    completes .rrEnc (withOp 127) (fun t => t.res.out == some ⟨#v[0xFF, 0x34, 0x12, 0, 1, 2, 3, 4], 8⟩) = true
      ∧ (withOp 127).ops.op.toNat < 128 ∧ (withOp 127).params.rrPadLen = 1
      ∧ (#v[0xFF, 0x34, 0x12, 0, 1, 2, 3, 4] : Vector Byte 8)[3] = 0x00
      ∧ (testParams 0).rrPadLen ≠ 1 ∧ (#v[0xFF, 0x34, 0x12, 1, 2, 3, 4, 0] : Vector Byte 8)[7] = 0x00 := by decide

/-- The lengths around that of a frame, for both pad lengths. -/
theorem witness_RrDecReadsTheMessage :
    (block (received 8 #v[0, 0, 0, 0, 0, 0, 0, 0])).ops.inLen.toNat = 7 + (testParams 1).rrPadLen.val
      ∧ (block (received 7 #v[0, 0, 0, 0, 0, 0, 0, 0]) 0 0).ops.inLen.toNat = 7 + (testParams 0).rrPadLen.val
      ∧ (block (received 7 #v[0, 0, 0, 0, 0, 0, 0, 0])).ops.inLen.toNat ≠ 7 + (testParams 1).rrPadLen.val
      ∧ (block (received 9 #v[0, 0, 0, 0, 0, 0, 0, 0])).ops.inLen.toNat ≠ 7 + (testParams 1).rrPadLen.val
      ∧ (block (received 8 #v[0, 0, 0, 0, 0, 0, 0, 0]) 0 0).ops.inLen.toNat ≠ 7 + (testParams 0).rrPadLen.val := by decide

/-- The frame of `withOp 127` received again, and its message encoded again. -/
theorem witness_RrRoundTrip :
    let r := block (received 8 #v[0xFF, 0x34, 0x12, 0, 1, 2, 3, 4])
    completes .rrEnc (withOp 127) (fun t => t.res.out == some ⟨#v[0xFF, 0x34, 0x12, 0, 1, 2, 3, 4], 8⟩) = true
      ∧ r.params = (withOp 127).params ∧ r.ops.inLen = 8
      ∧ (∀ j : Fin 8, r.ops.inBuf.get (j.castLE (by decide)) = (#v[0xFF, 0x34, 0x12, 0, 1, 2, 3, 4] : Vector Byte 8).get j)
      ∧ completes .rrDec r (fun t => statusErr t.status == 0 && t.res.rr == some ⟨127, true, 4, 0x1234, #v[1, 2, 3, 4], 0⟩) = true
      ∧ (withOp 127).ops.op = (127 : BitVec 7).setWidth 8 ∧ (withOp 127).ops.succ = true
      ∧ (withOp 127).ops.vid = 0x1234 ∧ (withOp 127).ops.pay = #v[1, 2, 3, 4] := by decide

theorem witness_RrBuildMakesTheReadyFrame :
    (withOp 127).ops.op.toNat < 128 ∧ 128 ≤ (withOp 128).ops.op.toNat := by decide

theorem witness_OperationCodesAndClasses : 4 ≤ (4 : BitVec 7).toNat ∧ 4 ≤ (127 : BitVec 7).toNat := by decide

theorem witness_OperationRowsAreDelivered :
    (block (received 8 #v[0, 0, 0, 0, 0, 0, 0, 0])).ops.inLen.toNat = 7 + (testParams 1).rrPadLen.val
      ∧ (block (received 7 #v[0, 0, 0, 0, 0, 0, 0, 0])).ops.inLen.toNat ≠ 7 + (testParams 1).rrPadLen.val
      ∧ 4 ≤ (4 : BitVec 7).toNat := by decide

theorem witness_EncodersCarryEveryOperationRow :
    (Instr.reserved true 127).format = .rrByte0 ∧ (Instr.reserved true 127).wf = true
      ∧ (withOp 127).ops.op = (unpackOp (encode (.reserved true 127))).setWidth 8
      ∧ (withOp 127).ops.succ = unpackSuccess (encode (.reserved true 127)) := by decide

/-- Channels at the ends of the range, and one beyond either end. -/
def withRpm (a b c d : Word) : State := block { Operands.reset with rpmIn := #v[a, b, c, d] }

theorem witness_TlmEncPacksOrRefuses :
    (∀ k : Fin 4, -32768 ≤ ((withRpm 0xFFFF8000 0x7FFF 0 1).ops.rpmIn.get k).toInt
        ∧ ((withRpm 0xFFFF8000 0x7FFF 0 1).ops.rpmIn.get k).toInt ≤ 32767)
      ∧ ((withRpm 0xFFFF7FFF 0 0 0).ops.rpmIn.get 0).toInt < -32768
      ∧ 32767 < ((withRpm 0 0 0 0x8000).ops.rpmIn.get 3).toInt := by decide

theorem witness_TelemetryLanesAreIndependent :
    (withRpm 5 1 2 3).ops.rpmIn.get 0 = (withRpm 5 4 6 7).ops.rpmIn.get 0
      ∧ completes .tlmEnc (withRpm 5 1 2 3) (fun t => t.res.out.isSome) = true
      ∧ completes .tlmEnc (withRpm 5 4 6 7) (fun t => t.res.out.isSome) = true
      ∧ fitsSigned16 ((withRpm 0 0 0 0x8000).ops.rpmIn.get 3) = false
      ∧ completes .tlmEnc (withRpm 0 0 0 0x8000) (fun _ => true) = true := by decide

theorem witness_TlmDecReadsTheChannels :
    (block (received 8 #v[0, 0, 0, 0, 0, 0, 0, 0])).ops.inLen = 8
      ∧ (block (received 7 #v[0, 0, 0, 0, 0, 0, 0, 0])).ops.inLen ≠ 8
      ∧ (block (received 9 #v[0, 0, 0, 0, 0, 0, 0, 0])).ops.inLen ≠ 8 := by decide

theorem witness_TelemetryRoundTrip :
    let r := block (received 8 #v[0x00, 0x80, 0xFF, 0x7F, 0, 0, 1, 0])
    completes .tlmEnc (withRpm 0xFFFF8000 0x7FFF 0 1)
        (fun t => statusErr t.status == 0 && t.res.out == some ⟨#v[0x00, 0x80, 0xFF, 0x7F, 0, 0, 1, 0], 8⟩) = true
      ∧ r.ops.inLen = 8
      ∧ (∀ j : Fin 8, r.ops.inBuf.get (j.castLE (by decide)) = (#v[0x00, 0x80, 0xFF, 0x7F, 0, 0, 1, 0] : Vector Byte 8).get j)
      ∧ completes .tlmDec r (fun t => statusErr t.status == 0 && t.res.tlm == some ⟨#v[0x8000, 0x7FFF, 0, 1], 0⟩) = true
      ∧ ∀ k : Fin 4, (withRpm 0xFFFF8000 0x7FFF 0 1).ops.rpmIn.get k
        = ((#v[0x8000, 0x7FFF, 0, 1] : Vector Half 4).get k).signExtend 32 := by decide

theorem witness_BothDecodersAcceptEveryEightBytes :
    (block (received 8 #v[0, 0, 0, 0, 0, 0, 0, 0])).params.rrPadLen = 1
      ∧ (block (received 8 #v[0, 0, 0, 0, 0, 0, 0, 0])).ops.inLen = 8 := by decide

/-- A payload of a length, for an id. -/
def payloadFor (vid : Half) (len : Byte) : State := block { received len #v[1, 0, 0, 0, 0, 0, 0, 0] with vid := vid, valIn := 1 }

theorem witness_ValDecInterpretsThePayload :
    (payloadFor 1 3).ops.inLen ≠ 4 ∧ (payloadFor 1 5).ops.inLen ≠ 4 ∧ (payloadFor 1 4).ops.inLen = 4 := by decide

theorem witness_TaggedValueIsInRangeOfItsTag :
    completes .valDec (payloadFor 2 4) (fun t => t.res.val == some ⟨0, 1⟩) = true
      ∧ completes .valDec (payloadFor 1 4) (fun t => t.res.val == some ⟨1, 1⟩) = true
      ∧ completes .valDec (payloadFor 4 4) (fun t => t.res.val == some ⟨3, 1⟩) = true := by decide

theorem witness_FormatRowsInterpretThePayload :
    (payloadFor 1 4).ops.inLen = 4 ∧ (payloadFor 1 3).ops.inLen ≠ 4 := by decide

theorem witness_ValEncProducesThePayload : (payloadFor 1 4).params.hasValEnc = true := by decide

theorem witness_ValueRoundTrip :
    (payloadFor 1 4).ops.inLen = 4 ∧ (payloadFor 1 4).params.hasValEnc = true
      ∧ Registry.formatOf (payloadFor 1 4).params.registry (payloadFor 1 4).ops.vid = some .unsignedShort16
      ∧ (payloadFor 1 4).ops.valIn = 1
      ∧ completes .valEnc (payloadFor 1 4)
        (fun t => statusErr t.status == 0 && t.res.out == some ⟨#v[1, 0, 0, 0, 0, 0, 0, 0], 4⟩) = true
      ∧ ∀ j : Fin 4, (payloadFor 1 4).ops.inBuf.get (j.castLE (by decide))
        = (#v[1, 0, 0, 0, 0, 0, 0, 0] : Vector Byte 8).get (j.castLE (by decide)) := by decide

theorem witness_NoStepChangesTheBuild : (after (step (pending (.write 0x00 [0x04]) (block .reset)))).isSome = true := by
  decide

theorem witness_RomToolReportsExactlyTheCollisions :
    (match buildRom [("A", 1, .float32), ("B", 2, .bool8)] with | .ok rom => rom | .error _ => [])
        = [(1, .float32), (2, .bool8)]
      ∧ (match buildRom [("A", 1, .float32), ("B", 1, .bool8)] with | .ok _ => none | .error e => some e)
        = some ("A", "B", 1) := by decide

/-- Components for VEC2_NEW. -/
def withVector (x y : Word) : State := block { Operands.reset with vxIn := x, vyIn := y }

theorem witness_Vec2NewClampsEachComponent :
    (withVector 0x3F800000 0xBF800001).params.hasVec2 = true
      ∧ ¬ ((0x3F800000 : Word).extractLsb' 23 8 = 0xFF#8 ∧ (0x3F800000 : Word).extractLsb' 0 23 ≠ 0#23)
      ∧ ¬ ((0x7F800000 : Word).extractLsb' 23 8 = 0xFF#8 ∧ (0x7F800000 : Word).extractLsb' 0 23 ≠ 0#23) := by decide

theorem witness_Vec2ComponentsStayInTheClampRange :
    completes .vec2New (withVector 0x3F800000 0xBF800001)
      (fun t => statusErr t.status == 0 && t.res.vec == some ⟨0x3F800000, 0xBF800000⟩) = true := by decide

theorem witness_TmrInitCreatesTheTimer :
    (block { Operands.reset with periodIn := 1 }).params.hasTimer = true
      ∧ (block { Operands.reset with periodIn := 1 }).ops.periodIn ≠ 0 ∧ (block .reset).ops.periodIn = 0 := by decide

/-- Not created; a tick before the deadline; at the deadline (m = 0); a period later (m = 1); the last deadline below
2^64. -/
theorem witness_TmrCheckFiresWhenDue :
    (block .reset).params.hasTimer = true ∧ (block .reset).timer = none
      ∧ (timed 1000 5000 4999).now < (5000 : Tick)
      ∧ ((5000 : Tick) ≤ (timed 1000 5000 5000).now ∧ 0 * 1000 ≤ 5000 - 5000 ∧ 5000 - 5000 < (0 + 1) * 1000
        ∧ 5000 + (0 + 1) * 1000 < 2 ^ 64)
      ∧ ((5000 : Tick) ≤ (timed 1000 5000 6000).now ∧ 1 * 1000 ≤ 6000 - 5000 ∧ 6000 - 5000 < (1 + 1) * 1000)
      ∧ (2 ^ 64 - 2 : Nat) + (0 + 1) * 1 < 2 ^ 64 := by decide

theorem witness_TmrCheckNeverRefiresOrDrifts :
    (timed 1000 5000 6500).params.hasTimer = true ∧ (timed 1000 5000 6500).timer = some ⟨1000, 5000⟩
      ∧ (1000 : Tick) ≠ 0
      ∧ completes .tmrCheck (timed 1000 5000 6500) (fun t => t.res.tmr == some ⟨true, 1⟩) = true
      ∧ completes .tmrCheck (timed 1000 5000 4999) (fun t => t.res.tmr == some ⟨false, 0⟩) = true := by decide

theorem witness_TmrResetRealignsTheDeadline :
    (block .reset).timer = none ∧ (timed 1 0 (BitVec.ofNat 64 (2 ^ 64 - 2))).timer = some ⟨1, 0⟩
      ∧ (timed 1 0 (BitVec.ofNat 64 (2 ^ 64 - 2))).now.toNat + 1 < 2 ^ 64 := by decide

/-- One tick on either side of 2^64, and a period of 0. -/
theorem witness_DeadlineBeyondSixtyFourBitsIsStuck :
    (timed 1 0 (BitVec.ofNat 64 (2 ^ 64 - 1))).params.hasTimer = true
      ∧ 2 ^ 64 ≤ (timed 1 0 (BitVec.ofNat 64 (2 ^ 64 - 1))).now.toNat + (1 : Tick).toNat
      ∧ completes .tmrReset (timed 1 0 (BitVec.ofNat 64 (2 ^ 64 - 1))) (fun _ => true) = false
      ∧ completes .tmrReset (timed 1 0 (BitVec.ofNat 64 (2 ^ 64 - 2))) (fun _ => true) = true
      ∧ completes .tmrCheck (timed 1 0 (BitVec.ofNat 64 (2 ^ 64 - 1))) (fun _ => true) = false
      ∧ completes .tmrCheck (timed 1 0 (BitVec.ofNat 64 (2 ^ 64 - 2))) (fun _ => true) = true
      ∧ completes .tmrCheck (timed 0 0 0) (fun _ => true) = false := by decide

theorem witness_OnlyTimerCommandsTouchTheTimer :
    Instr.rrEnc ∉ ([.tmrInit, .tmrCheck, .tmrReset] : List Instr)
      ∧ completes .rrEnc (timed 1000 5000 6500) (fun _ => true) = true
      ∧ Instr.tmrReset ≠ .tmrCheck ∧ completes .tmrReset (timed 1000 5000 6500) (fun _ => true) = true := by decide

theorem witness_CommandsWriteNoOperand : completes .tmrCheck (timed 1000 5000 6500) (fun _ => true) = true := by decide

theorem witness_CommandsTouchOnlyTheirGroups :
    completes .rrBuild (withOp 128) (fun _ => true) = true ∧ Group.rr ∉ ownedGroups .rrBuild := by decide

/-- A success, a failure, an illegal command. -/
theorem witness_ValidBitsTellSuccessFromFailure :
    completes .rrBuild (withOp 127) (fun t => statusErr t.status == 0) = true
      ∧ completes .rrBuild (withOp 128) (fun t => statusErr t.status == 1) = true
      ∧ completes .tmrCheck (block .reset) (fun t => statusErr t.status == 6) = true := by decide

theorem witness_ErrorCodesHaveExactlyTheirCauses :
    completes .rrEnc (withOp 128) (fun t => statusErr t.status == 1) = true
      ∧ completes .tlmDec (block .reset) (fun t => statusErr t.status == 2) = true
      ∧ completes .valDec (payloadFor 0x7777 3) (fun t => statusErr t.status == 3) = true
      ∧ completes .valDec (payloadFor 0x7777 4) (fun t => statusErr t.status == 4) = true
      ∧ completes .tmrInit (block .reset) (fun t => statusErr t.status == 5) = true
      ∧ completes .tmrReset (block .reset) (fun t => statusErr t.status == 6) = true := by decide

theorem witness_StatusInfluencesNoCommand : completes .fmtLookup (payloadFor 1 4) (fun _ => true) = true := by decide

theorem witness_CodecCommandsAreIdempotent :
    Instr.vec2New ∉ ([.tmrInit, .tmrCheck, .tmrReset] : List Instr)
      ∧ isNaN (withVector 0x7F800000 0).ops.vxIn = false ∧ isNaN (withVector 0x7F800000 0).ops.vyIn = false
      ∧ completes .vec2New (withVector 0x7F800000 0) (fun _ => true) = true := by decide

/-- Two blocks with equal operands and unequal timers, results and status. -/
theorem witness_CodecResultsDependOnOperandsOnly :
    let s := block .reset
    let t : State := { s with status := 0x86, timer := some ⟨1, 2⟩, res := { s.res with fmt := some 1 } }
    s.params = t.params ∧ s.ops = t.ops ∧ s.now = t.now ∧ unitPresent s.params .rrEnc = true
      ∧ completes .rrEnc s (fun _ => true) = true ∧ completes .rrEnc t (fun _ => true) = true := by decide

/-- `SUCC`, whose bits 7:1 are ignored, and `VID`, two bytes. -/
theorem witness_WrittenRegisterReadsBack :
    Reg.succ.writable = true ∧ Reg.succ.existsIn (testParams 1) = true ∧ ([0xFF] : List Byte).length = Reg.succ.size
      ∧ Reg.vid.writable = true ∧ Reg.vid.existsIn (testParams 1) = true
      ∧ ([0x34, 0x12] : List Byte).length = Reg.vid.size ∧ statusBusy (block .reset).status = false := by decide

theorem witness_HostWriteChangesOneRegisterAtMost :
    Reg.node ≠ .cmd ∧ Reg.node.existsIn (testParams 1) = true ∧ ([5, 0, 0, 0] : List Byte).length = Reg.node.size
      ∧ Reg.outLen.writable = false ∧ Reg.outLen.existsIn (testParams 1) = true
      ∧ ([5] : List Byte).length = Reg.outLen.size ∧ Reg.rVal ≠ Reg.node := by decide

theorem witness_HostReadsHaveNoSideEffect :
    (after (step (pending (.read 0x01 1) (block .reset)))).isSome = true
      ∧ (after (step (pending (.read 0x07 1) (block .reset)))).isSome = true := by decide

/-- An idle block that has every unit, a timer and a value in every group. -/
def allGroups : State :=
  { timed 1000 5000 6500 with
    res := ⟨some ⟨#v[1, 2, 3, 4, 5, 6, 7, 8], 8⟩, some ⟨127, true, 4, 0x1234, #v[1, 2, 3, 4], 6⟩,
      some ⟨#v[1, 2, 3, 0x8000], 7⟩, some ⟨3, 1⟩, some 0x605, some ⟨true, 1⟩, some ⟨0x3F800000, 0⟩, some 2⟩ }

/-- Every clause's premise at once, and the reads of `RVALID`, of the last bytes of `OUT_BUF`, `R_PAY` and `R_RPM`, and
of the first and the last register of the companions (R66). -/
theorem witness_HostReadsReturnTheRegisters :
    statusBusy allGroups.status = false ∧ allGroups.params.hasValEnc = true ∧ allGroups.params.hasTimer = true
      ∧ allGroups.params.hasVec2 = true ∧ allGroups.timer.isSome = true ∧ allGroups.res.rvalid = 0xFF
      ∧ (after (step (pending (.read 0x02 1) allGroups))).map (fun t => t.readData) = some [0xFF]
      ∧ (after (step (pending (.read 0x47 1) allGroups))).map (fun t => t.readData) = some [8]
      ∧ (after (step (pending (.read 0x53 1) allGroups))).map (fun t => t.readData) = some [4]
      ∧ (after (step (pending (.read 0x5E 2) allGroups))).map (fun t => t.readData) = some [0x00, 0x80]
      ∧ (after (step (pending (.read 0x88 8) allGroups))).map (fun t => t.readData) = some [0xE8, 0x03, 0, 0, 0, 0, 0, 0]
      ∧ (after (step (pending (.read 0xB4 4) allGroups))).map (fun t => t.readData) = some [0, 0, 0, 0] := by decide

/-- Half of `VID`, and `VID` with the bytes after it. -/
theorem witness_PartialAccessesAreRefused :
    Reg.vid.existsIn (testParams 1) = true
      ∧ (Reg.vid.overlaps 0x09 1 = true ∧ ¬ (Reg.vid.offset = 0x09 ∧ Reg.vid.size = 1) ∧ 0x09 + 1 ≤ 256)
      ∧ (Reg.vid.overlaps 0x08 4 = true ∧ ¬ (Reg.vid.offset = 0x08 ∧ Reg.vid.size = 4) ∧ 0x08 + 4 ≤ 256) := by decide

theorem witness_AccessesBeyondTheSpaceStop : 256 < 256 + 1 ∧ 256 < 253 + 4 ∧ ([0] : List Byte).length = 1 := by decide

theorem witness_BusyBlockAnswersStatusOnly :
    statusBusy ({ block .reset with status := 0x40 }).status = true ∧ Reg.status.existsIn (testParams 1) = true
      ∧ Reg.op.existsIn (testParams 1) = true ∧ ([0] : List Byte).length = Reg.op.size := by decide

/-- 0x07, and a byte of an absent timer. -/
theorem witness_ReservedBytesReadZero :
    statusBusy (block .reset).status = false
      ∧ (∀ r ∈ Reg.all, r.existsIn (testParams 1) = true → r.overlaps 0x07 1 = false)
      ∧ (∀ r ∈ Reg.all, r.existsIn bareParams = true → r.overlaps 0x80 1 = false) := by decide

theorem witness_ResetLeavesTheTable :
    (pending .reset { timed 1000 5000 6500 with status := 0x40 }).inbox = .reset :: [] := rfl

theorem witness_FirstCommandsAfterReset :
    (testParams 1).hasValEnc = true ∧ (testParams 1).hasVec2 = true := by decide

theorem witness_TimeNeverGoesBack :
    (after (step (pending (.time 7) (block .reset 9)))).map (fun t => t.now) = some 9
      ∧ (after (step (pending (.time 11) (block .reset 9)))).map (fun t => t.now) = some 11 := by decide

theorem witness_EveryStepKeepsTheInvariant :
    Inv { timed 1000 5000 6500 with status := 0x80 }
      ∧ (after (step (pending (.write 0x00 [0x11]) { timed 1000 5000 6500 with status := 0x80 }))).isSome = true := by
  refine ⟨⟨⟨by decide, by decide, by decide, by decide⟩, ?_, ?_, ?_, ?_, ⟨?_, ?_, ?_, ?_⟩, ⟨?_, ?_⟩, ?_⟩, by decide⟩
  · intro g h; cases h
  · intro g h; cases h
  · intro g h; cases h
  · intro g h; cases h
  · rintro t ht; cases ht; decide
  · intro h; cases h
  · intro g h; cases h
  · intro h; exact absurd h (by decide)
  · intro h; cases h
  · intro h; cases h
  · intro h; exact absurd h (by decide)

end Sys2Proof.Tests
end

section
/-! PROOF. Writes of `CMD` that select no command of the build (30_encoding.md R95, R96). -/

namespace Sys2Proof

/-- A code that selects a command is the word of that command's row (30_encoding.md R95). -/
theorem encode_of_decode_cmd8 {code : Byte} {i : Instr} (h : decode .cmd8 code = .ok i) :
    i.format = .cmd8 ∧ encode i = code := by
  rw [decode, decodeCmd8] at h
  split at h
  case h_13 => cases h
  all_goals
    rename_i hcode
    cases h
    exact ⟨rfl, BitVec.eq_of_toNat_eq hcode.symm⟩

end Sys2Proof

namespace Sys2Proof.Machine

/-- A command of an absent unit is an illegal command (30_encoding.md R96). -/
theorem exec_of_unit_absent {i : Instr} {s : State} (h : unitPresent s.params i = false) :
    exec i s = .next (raised .illegalCommand [] s) := by
  cases i with
  | valEnc | tmrInit | tmrCheck | tmrReset | vec2New => exact ifPresent_of_absent h _ s
  | _ => cases h

/-- Issuing a code whose command, if it selects one, is of an absent unit (30_encoding.md R96). -/
theorem issue_of_no_present_command {code : Byte} {s : State}
    (h : ∀ i, decode .cmd8 code = .ok i → unitPresent s.params i = false) :
    issue code s = .next (raised .illegalCommand [] { s with cmd := code }) := by
  unfold issue
  split
  next i hi => exact exec_of_unit_absent (h i hi)
  next => rfl

/-- A step that serves a write of `CMD` on an idle block issues the code (10_state.md R33). -/
theorem step_write_cmd {s : State} {code : Byte} {rest : List HostAccess}
    (hin : s.inbox = .write 0x00 [code] :: rest) (hidle : statusBusy s.status = false) :
    step s = issue code { s with inbox := rest } := by
  have value : (ofBytes [code]).setWidth 8 = code := by simp [ofBytes]
  calc step s = serveWrite Reg.cmd.offset [code] { s with inbox := rest } := step_of_cons hin
    _ = hostWrite .cmd (ofBytes [code]) { s with inbox := rest } := serveWrite_whole rfl hidle rfl
    _ = issue code { s with inbox := rest } := by rw [hostWrite_cmd, value]

end Sys2Proof.Machine

open Sys2Proof Sys2Proof.Machine

/-- Settles O7: a code that decodes is the word of its row, and every row whose word the premises leave over is of an
absent unit. -/
theorem illegalCodesChangeNoGroup : Obligations.IllegalCodesChangeNoGroup := by
  unfold Obligations.IllegalCodesChangeNoGroup
  intro s code rest hin hidle hcode hvalEnc htimer hvec2
  have absent : ∀ i, decode .cmd8 code = .ok i → unitPresent s.params i = false := by
    intro i hi
    obtain ⟨hformat, rfl⟩ := encode_of_decode_cmd8 hi
    cases i with
    | valEnc => exact Bool.eq_false_iff.mpr fun present => hvalEnc present rfl
    | tmrInit => exact Bool.eq_false_iff.mpr fun present => (htimer present).1 rfl
    | tmrCheck => exact Bool.eq_false_iff.mpr fun present => (htimer present).2.1 rfl
    | tmrReset => exact Bool.eq_false_iff.mpr fun present => (htimer present).2.2 rfl
    | vec2New => exact Bool.eq_false_iff.mpr fun present => hvec2 present rfl
    | rrEnc | rrDec | rrBuild | tlmEnc | tlmDec | fmtLookup | valDec => exact absurd (by simp [encode]) hcode
    | _ => cases hformat
  rw [step_write_cmd hin hidle]
  exact issue_of_no_present_command (s := { s with inbox := rest }) absent

end

section
/-! PROOF. The request/reply codec: RR_ENC, RR_BUILD and RR_DEC on every state, and the round trip between them
(40_request_reply.md R112 to R118). Encoding and decoding meet in `ReadsAs`: the operands a frame reads as. -/

namespace Sys2Proof

/-- A byte that fits 7 bits is its own operation code widened (60_exceptions.md R192). -/
theorem setWidth_unpackOp_of_lt {op : Byte} (h : op.toNat < 128) : (unpackOp op).setWidth 8 = op := by
  revert op; decide

end Sys2Proof

namespace Sys2Proof.Machine

/-! ### Completion -/

theorem finish_ok_eq (s : State) : finish 0 false s = { s with status := 0x80, draw := s.draw + 1 } := rfl

theorem statusErr_raised_ne_zero (e : CommandError) (groups : List Group) (s : State) :
    statusErr (raised e groups s).status ≠ 0 := by
  rw [raised_status, statusErr_statusDone]
  exact e.code_ne_zero

/-! ### The commands (40_request_reply.md R112, R115, R118) -/

theorem opTooWide_iff (s : State) : opTooWide s = true ↔ 128 ≤ s.ops.op.toNat := by simp [opTooWide]

theorem not_opTooWide {s : State} (h : s.ops.op.toNat < 128) : ¬ opTooWide s = true := by
  rw [opTooWide_iff]
  exact Nat.not_le.mpr h

theorem exec_rrEnc_of_fits {s : State} (h : s.ops.op.toNat < 128) :
    exec .rrEnc s = .next (finish 0 false { s with res := { s.res with out := some (rrFrame s) } }) :=
  if_neg (not_opTooWide h)

theorem exec_rrEnc_of_tooWide {s : State} (h : 128 ≤ s.ops.op.toNat) :
    exec .rrEnc s = .next (raised .invalidOperation [.out] s) :=
  if_pos ((opTooWide_iff s).mpr h)

theorem exec_rrBuild_of_fits {s : State} (h : s.ops.op.toNat < 128) :
    exec .rrBuild s = .next (finish 0 false
      { s with res := { s.res with addr := some (frameAddress s), out := some (rrFrame s) } }) :=
  if_neg (not_opTooWide h)

theorem exec_rrBuild_of_tooWide {s : State} (h : 128 ≤ s.ops.op.toNat) :
    exec .rrBuild s = .next (raised .invalidOperation [.addr, .out] s) :=
  if_pos ((opTooWide_iff s).mpr h)

/-- The message RR_DEC reads from `IN_BUF` (40_request_reply.md R115). -/
def receivedMessage (s : State) : RrGroup :=
  message (unpackOp (inByte s 0)) (unpackSuccess (inByte s 0)) (opclass (unpackOp (inByte s 0))) s

theorem exec_rrDec_of_length {s : State} (h : s.ops.inLen.toNat = rrLen s.params) :
    exec .rrDec s = .next (finish 0 false { s with res := { s.res with rr := some (receivedMessage s) } }) :=
  deliver_of_length h _ _ _

theorem exec_rrDec_of_wrong_length {s : State} (h : s.ops.inLen.toNat ≠ rrLen s.params) :
    exec .rrDec s = .next (raised .malformedPacket [.rr] s) :=
  deliver_of_wrong_length h _ _ _

theorem receivedMessage_eq (s : State) : receivedMessage s =
    { op := s.ops.inBuf[0].extractLsb' 0 7
      succ := s.ops.inBuf[0].getLsbD 7
      cls :=
        if s.ops.inBuf[0].extractLsb' 0 7 = 0#7 then 0
        else if s.ops.inBuf[0].extractLsb' 0 7 = 1#7 then 1
        else if s.ops.inBuf[0].extractLsb' 0 7 = 2#7 then 2
        else if s.ops.inBuf[0].extractLsb' 0 7 = 3#7 then 3 else 4
      vid := s.ops.inBuf[2] ++ s.ops.inBuf[1]
      pay :=
        if s.params.rrPadLen = 1 then #v[s.ops.inBuf[4], s.ops.inBuf[5], s.ops.inBuf[6], s.ops.inBuf[7]]
        else #v[s.ops.inBuf[3], s.ops.inBuf[4], s.ops.inBuf[5], s.ops.inBuf[6]]
      ts := s.now } := by
  rw [receivedMessage, message, opclass_eq, framePayload_eq]
  rfl

/-- The frame a successful RR_ENC leaves in group `OUT`. -/
theorem rrEnc_out {s s' : State} {o : OutGroup} (h : s.ops.op.toNat < 128) (run : exec .rrEnc s = .next s')
    (hout : s'.res.out = some o) : o = rrFrame s := by
  rw [exec_rrEnc_of_fits h, Host.Outcome.next.injEq] at run
  subst run
  exact (Option.some.inj hout).symm

/-- The message a successful RR_DEC leaves in group `RR`, and the length it found. -/
theorem rrDec_rr {s s' : State} {g : RrGroup} (run : exec .rrDec s = .next s') (hok : statusErr s'.status = 0)
    (hrr : s'.res.rr = some g) : s.ops.inLen.toNat = rrLen s.params ∧ g = receivedMessage s := by
  by_cases hlen : s.ops.inLen.toNat = rrLen s.params
  · rw [exec_rrDec_of_length hlen, Host.Outcome.next.injEq] at run
    subst run
    exact ⟨hlen, (Option.some.inj hrr).symm⟩
  · rw [exec_rrDec_of_wrong_length hlen, Host.Outcome.next.injEq] at run
    subst run
    exact absurd hok (statusErr_raised_ne_zero _ _ s)

/-! ### The bytes of a frame (30_encoding.md R81) -/

theorem rrFrame_get (s : State) (j : Fin 8) : (rrFrame s).buf.get j = frameByte s.params.rrPadLen.val s.ops j.val :=
  Vector.getElem_ofFn j.isLt

theorem len_rrFrame (s : State) : (rrFrame s).len = if s.params.rrPadLen = 1 then 8 else 7 := by
  rw [rrFrame_eq, apply_ite OutGroup.len]

theorem toNat_len_rrFrame (s : State) : (rrFrame s).len.toNat = rrLen s.params :=
  Nat.mod_eq_of_lt (by simp only [rrLen]; omega)

theorem frameByte_payload (P : Nat) (o : Operands) (i : Fin 4) : frameByte P o (3 + P + i.val) = o.pay.get i := by
  have inside : 3 + P ≤ 3 + P + i.val ∧ 3 + P + i.val < 7 + P := by omega
  rw [frameByte, if_neg (by omega), if_neg (by omega), if_neg (by omega), dif_pos inside]
  congr 1
  exact Fin.ext (by simp)

/-- The pad and what follows the frame are 0x00 (40_request_reply.md R112). -/
theorem frameByte_outside {P j : Nat} (o : Operands) (h : 3 ≤ j) (out : j < 3 + P ∨ 7 + P ≤ j) :
    frameByte P o j = 0 := by
  rw [frameByte, if_neg (by omega), if_neg (by omega), if_neg (by omega), dif_neg (by omega)]

/-- The bytes of `IN_BUF` a frame can take. -/
def receivedByte (s : State) (j : Fin 8) : Byte := s.ops.inBuf.get (j.castLE (by decide))

/-! ### The operands a frame reads as -/

/-- The operands are what the bytes say at the places of 30_encoding.md R81, byte 0 split as in R82. -/
structure ReadsAs (P : Fin 2) (bytes : Fin 8 → Byte) (o : Operands) : Prop where
  op : o.op = (unpackOp (bytes 0)).setWidth 8
  succ : o.succ = unpackSuccess (bytes 0)
  vid : o.vid = le16 (bytes 1) (bytes 2)
  pay : o.pay = Vector.ofFn fun i : Fin 4 => bytes ⟨3 + P.val + i.val, by omega⟩

/-- A frame reads as one message. -/
theorem ReadsAs.unique {P : Fin 2} {bytes : Fin 8 → Byte} {o q : Operands} (ho : ReadsAs P bytes o)
    (hq : ReadsAs P bytes q) : o.op = q.op ∧ o.succ = q.succ ∧ o.vid = q.vid ∧ o.pay = q.pay :=
  ⟨ho.op.trans hq.op.symm, ho.succ.trans hq.succ.symm, ho.vid.trans hq.vid.symm, ho.pay.trans hq.pay.symm⟩

theorem ReadsAs.op_lt {P : Fin 2} {bytes : Fin 8 → Byte} {o : Operands} (h : ReadsAs P bytes o) : o.op.toNat < 128 :=
  h.op ▸ toNat_setWidth_op_lt _

/-- Only the bytes of the frame matter. -/
theorem ReadsAs.congr {P : Fin 2} {bytes bytes' : Fin 8 → Byte} {o : Operands} (h : ReadsAs P bytes o)
    (same : ∀ j : Fin 8, j.val < 7 + P.val → bytes' j = bytes j) : ReadsAs P bytes' o where
  op := by rw [same 0 (by simp)]; exact h.op
  succ := by rw [same 0 (by simp)]; exact h.succ
  vid := by rw [same 1 (by simp; omega), same 2 (by simp; omega)]; exact h.vid
  pay := by
    rw [h.pay]
    congr 1
    funext i
    exact (same _ (by simp only; omega)).symm

/-- The encoder writes a frame that reads as the operands (40_request_reply.md R112). -/
theorem rrFrame_readsAs {s : State} (h : s.ops.op.toNat < 128) :
    ReadsAs s.params.rrPadLen (rrFrame s).buf.get s.ops where
  op := by
    rw [rrFrame_get]
    exact (setWidth_unpackOp_of_lt h).symm.trans (congrArg _ (unpackOp_pack0 _ _).symm)
  succ := by rw [rrFrame_get]; exact (unpackSuccess_pack0 _ _).symm
  vid := by rw [rrFrame_get, rrFrame_get]; exact (le16_bytes _).symm
  pay := by
    apply Vector.ext
    intro i hi
    rw [Vector.getElem_ofFn, rrFrame_get]
    exact (frameByte_payload _ _ ⟨i, hi⟩).symm

/-- Encoding what a frame reads as gives every byte of the frame back but the pad. -/
theorem ReadsAs.frameByte_eq {P : Fin 2} {bytes : Fin 8 → Byte} {o : Operands} (h : ReadsAs P bytes o) {j : Fin 8}
    (hj : j.val < 7 + P.val) (notPad : P = 0 ∨ j ≠ 3) : frameByte P.val o j.val = bytes j := by
  obtain rfl | rfl | rfl | ⟨i, hi⟩ : j = 0 ∨ j = 1 ∨ j = 2 ∨ ∃ i : Fin 4, j.val = 3 + P.val + i.val := by
    by_cases hp : 3 + P.val ≤ j.val
    · exact .inr (.inr (.inr ⟨⟨j.val - (3 + P.val), by omega⟩, by simp only; omega⟩))
    · omega
  · change pack0 (unpackOp o.op) o.succ = _
    rw [h.op, h.succ, unpackOp_setWidth, pack0_unpack]
  · change byteOf o.vid 0 = _
    rw [h.vid, byteOf_le16_0]
  · change byteOf o.vid 1 = _
    rw [h.vid, byteOf_le16_1]
  · rw [hi, frameByte_payload, h.pay, Fin.ext hi (b := ⟨3 + P.val + i.val, by omega⟩)]
    exact Vector.getElem_ofFn i.isLt

/-- Encoding what a frame reads as gives the whole frame back exactly where its pad byte, if any, is 0x00
(40_request_reply.md R117). -/
theorem ReadsAs.frameByte_eq_iff {P : Fin 2} {bytes : Fin 8 → Byte} {o : Operands} (h : ReadsAs P bytes o) :
    (∀ j : Fin 8, j.val < 7 + P.val → frameByte P.val o j.val = bytes j) ↔ P = 0 ∨ bytes 3 = 0 := by
  have padByte (hP : P = 1) : frameByte P.val o 3 = 0 := frameByte_outside o (by decide) (by subst hP; decide)
  constructor
  · intro same
    obtain hP | hP : P = 0 ∨ P = 1 := by omega
    · exact .inl hP
    · exact .inr ((same 3 (by simp [hP])).symm.trans (padByte hP))
  · intro zeroPad j hj
    by_cases pad : P = 0 ∨ j ≠ 3
    · exact h.frameByte_eq hj pad
    · obtain ⟨hP, rfl⟩ : P = 1 ∧ j = 3 := by omega
      exact (padByte hP).trans (zeroPad.resolve_left (by simp [hP])).symm

/-- The operands a frame reads as, every other register as after a reset. -/
def operandsOf (P : Fin 2) (bytes : Fin 8 → Byte) : Operands :=
  { Operands.reset with
    op := (unpackOp (bytes 0)).setWidth 8
    succ := unpackSuccess (bytes 0)
    vid := le16 (bytes 1) (bytes 2)
    pay := Vector.ofFn fun i : Fin 4 => bytes ⟨3 + P.val + i.val, by omega⟩ }

theorem readsAs_operandsOf (P : Fin 2) (bytes : Fin 8 → Byte) : ReadsAs P bytes (operandsOf P bytes) :=
  ⟨rfl, rfl, rfl, rfl⟩

/-- A frame whose pad byte, or whose byte after it where it has none, is 0x00 is what RR_ENC writes for the operands it
reads as (40_request_reply.md R113). -/
theorem rrFrame_of_readsAs {s : State} {frame : Vector Byte 8} (h : ReadsAs s.params.rrPadLen frame.get s.ops)
    (zero : if s.params.rrPadLen = 1 then frame[3] = 0x00 else frame[7] = 0x00) :
    rrFrame s = ⟨frame, if s.params.rrPadLen = 1 then 8 else 7⟩ := by
  have zeroPad : s.params.rrPadLen = 0 ∨ frame.get 3 = 0 := by
    split at zero
    · exact .inr zero
    · exact .inl (by omega)
  have bytes (j : Fin 8) : (rrFrame s).buf.get j = frame.get j := by
    rw [rrFrame_get]
    by_cases hj : j.val < 7 + s.params.rrPadLen.val
    · exact h.frameByte_eq_iff.mpr zeroPad j hj
    · obtain ⟨hP, rfl⟩ : s.params.rrPadLen = 0 ∧ j = 7 := by omega
      rw [if_neg (by simp [hP])] at zero
      exact (frameByte_outside s.ops (by decide) (.inr (by simp [hP]))).trans zero.symm
  have buf : (rrFrame s).buf = frame := Vector.ext fun j hj => bytes ⟨j, hj⟩
  rw [← buf, ← len_rrFrame]

/-- The operands that present a message to RR_ENC. -/
structure Presents (o : Operands) (g : RrGroup) : Prop where
  op : o.op = g.op.setWidth 8
  succ : o.succ = g.succ
  vid : o.vid = g.vid
  pay : o.pay = g.pay

/-- RR_DEC finds the message whose operands the received frame reads as (40_request_reply.md R115). -/
theorem presents_receivedMessage_iff (s : State) (o : Operands) :
    Presents o (receivedMessage s) ↔ ReadsAs s.params.rrPadLen (receivedByte s) o :=
  ⟨fun ⟨op, succ, vid, pay⟩ => ⟨op, succ, vid, pay⟩, fun ⟨op, succ, vid, pay⟩ => ⟨op, succ, vid, pay⟩⟩

end Sys2Proof.Machine
end

section
/-! PROOF. The statements of the request/reply codec. -/

open Sys2Proof Sys2Proof.Machine

/-- Settles O12: a frame reads as one message, and what a zero-pad frame reads as encodes to it. -/
theorem rrEncIsInjectiveOntoZeroPadFrames : Obligations.RrEncIsInjectiveOntoZeroPadFrames := by
  unfold Obligations.RrEncIsInjectiveOntoZeroPadFrames
  refine ⟨?injective, ?zeroPad, ?onto⟩
  case injective =>
    intro s t s' t' o hpad hs ht hrun hrun' hout hout'
    have same : rrFrame s = rrFrame t := (rrEnc_out hs hrun hout).symm.trans (rrEnc_out ht hrun' hout')
    have reads : ReadsAs s.params.rrPadLen (rrFrame s).buf.get s.ops := rrFrame_readsAs hs
    have reads' : ReadsAs t.params.rrPadLen (rrFrame t).buf.get t.ops := rrFrame_readsAs ht
    rw [← hpad, ← same] at reads'
    exact reads.unique reads'
  case zeroPad =>
    intro s s' o hs hrun hout hpad
    rw [rrEnc_out hs hrun hout]
    exact (rrFrame_get s 3).trans (frameByte_outside s.ops (by decide) (by rw [hpad]; decide))
  case onto =>
    intro p frame hzero
    let s : State := { State.reset with params := p, ops := operandsOf p.rrPadLen frame.get }
    have reads : ReadsAs p.rrPadLen frame.get s.ops := readsAs_operandsOf p.rrPadLen frame.get
    exact ⟨s, _, rfl, reads.op_lt, exec_rrEnc_of_fits reads.op_lt, congrArg some (rrFrame_of_readsAs reads hzero)⟩

/-- Settles O14: RR_DEC finds the message whose operands the frame reads as, and RR_ENC writes a frame that reads as its
operands; the converse loses only the pad byte. -/
theorem rrRoundTrip : Obligations.RrRoundTrip := by
  unfold Obligations.RrRoundTrip
  constructor
  · intro s s' r o hs hrun hout hparams hlen hbytes
    obtain rfl := rrEnc_out hs hrun hout
    rw [toNat_len_rrFrame] at hbytes
    have length : r.ops.inLen.toNat = rrLen r.params := by rw [hlen, hparams, toNat_len_rrFrame]
    have reads : ReadsAs s.params.rrPadLen (receivedByte r) s.ops := (rrFrame_readsAs hs).congr hbytes
    rw [← hparams] at reads
    obtain ⟨op, succ, vid, pay⟩ := (presents_receivedMessage_iff r s.ops).mpr reads
    exact ⟨_, _, exec_rrDec_of_length length, statusErr_statusDone 0 false, rfl, op.symm, succ.symm, vid.symm, pay.symm⟩
  · intro s s' r g hrun hok hrr hparams hop hsucc hvid hpay
    obtain ⟨length, rfl⟩ := rrDec_rr hrun hok hrr
    have reads : ReadsAs s.params.rrPadLen (receivedByte s) r.ops :=
      (presents_receivedMessage_iff s r.ops).mp ⟨hop, hsucc, hvid, hpay⟩
    refine ⟨_, rrFrame r, exec_rrEnc_of_fits reads.op_lt, statusErr_statusDone 0 false, rfl, ?_, ?_⟩
    · exact BitVec.eq_of_toNat_eq (by rw [toNat_len_rrFrame, hparams, length])
    · rw [toNat_len_rrFrame, hparams]
      simp only [rrFrame_get, hparams]
      exact reads.frameByte_eq_iff

/-- Settles O11: the frame of RR_ENC byte by byte. -/
theorem rrEncWritesTheFrame : Obligations.RrEncWritesTheFrame := by
  unfold Obligations.RrEncWritesTheFrame
  intro s
  constructor
  · intro h
    rw [exec_rrEnc_of_fits h, finish_ok_eq, rrFrame_eq, pack0_unpackOp_of_lt h]
    rfl
  · intro h
    exact exec_rrEnc_of_tooWide h

/-- Settles O13: the message of RR_DEC register by register. -/
theorem rrDecReadsTheMessage : Obligations.RrDecReadsTheMessage := by
  unfold Obligations.RrDecReadsTheMessage
  intro s
  constructor
  · intro h
    rw [exec_rrDec_of_length h, finish_ok_eq, receivedMessage_eq]
  · intro h
    exact exec_rrDec_of_wrong_length h

/-- Settles O15: RR_BUILD writes the group RR_ENC writes, and the frame's address. -/
theorem rrBuildMakesTheReadyFrame : Obligations.RrBuildMakesTheReadyFrame := by
  unfold Obligations.RrBuildMakesTheReadyFrame
  intro s
  constructor
  · intro h
    exact ⟨_, exec_rrEnc_of_fits h, rfl, exec_rrBuild_of_fits h⟩
  · intro h
    exact exec_rrBuild_of_tooWide h

/-- Settles O16: the codes by evaluation, the class of the reserved codes for all of them. -/
theorem operationCodesAndClasses : Obligations.OperationCodesAndClasses := by
  unfold Obligations.OperationCodesAndClasses
  exact ⟨rfl, rfl, rfl, rfl, rfl, rfl, rfl, rfl, rfl, rfl, rfl, rfl, fun _ => opclass_of_reserved⟩

end

section
/-! PROOF. The telemetry codec: TLM_ENC and TLM_DEC on every state, lane by lane (41_telemetry.md R141 to R146). -/

namespace Sys2Proof.Machine

/-! ### Narrowing and widening a lane -/

/-- A low byte of a 32-bit value is that byte of its low half. -/
theorem byteOf_setWidth_half (v : Word) {i : Nat} (h : i < 2) : byteOf (v.setWidth 16 : Half) i = byteOf v i :=
  BitVec.eq_of_getLsbD_eq fun j hj => by simp [byteOf, hj, show 8 * i + j < 16 by omega]

/-- Sign extension leaves the bytes of a lane alone. -/
theorem byteOf_signExtend_half (h : Half) {i : Nat} (hi : i < 2) : byteOf (h.signExtend 32 : Word) i = byteOf h i := by
  rw [← byteOf_setWidth_half _ hi, setWidth_signExtend]

/-- A number that fits a lane reads as itself from the lane (41_telemetry.md R147). -/
theorem toInt_setWidth_of_fits {v : Word} (h : fitsSigned16 v = true) : (v.setWidth 16 : Half).toInt = v.toInt := by
  rw [← BitVec.toInt_signExtend_of_le (show 16 ≤ 32 by decide), signExtend_setWidth_of_fits h]

/-- A number fits a lane exactly when its bits 31:15 are all equal (41_telemetry.md R141). -/
theorem fitsSigned16_iff_bits (v : Word) :
    fitsSigned16 v = true ↔ v.extractLsb' 15 17 = 0 ∨ v.extractLsb' 15 17 = BitVec.allOnes 17 := by
  have hv := v.isLt
  rw [fitsSigned16_iff, BitVec.toInt_eq_toNat_cond, ← BitVec.toNat_inj, ← BitVec.toNat_inj, BitVec.extractLsb'_toNat,
    BitVec.toNat_allOnes, Nat.shiftRight_eq_div_pow]
  simp only [BitVec.ofNat_eq_ofNat, BitVec.toNat_ofNat]
  split <;> omega

theorem fitsSigned16_eq_false_iff (v : Word) : fitsSigned16 v = false ↔ v.toInt < -32768 ∨ 32767 < v.toInt := by
  rw [← Bool.not_eq_true, fitsSigned16_iff]
  omega

/-! ### The commands (41_telemetry.md R141, R144) -/

theorem exec_tlmEnc_of_fits {s : State} (h : ∀ k : Fin 4, fitsSigned16 (s.ops.rpmIn.get k) = true) :
    exec .tlmEnc s = .next (finish 0 false { s with res := { s.res with out := some (telemetryFrame s) } }) :=
  if_pos ((rpmInRange_iff s).mpr h)

theorem exec_tlmEnc_of_outOfRange {s : State} {k : Fin 4} (h : fitsSigned16 (s.ops.rpmIn.get k) = false) :
    exec .tlmEnc s = .next (raised .valueOutOfRange [.out] s) :=
  if_neg fun inRange => Bool.eq_false_iff.mp h ((rpmInRange_iff s).mp inRange k)

theorem exec_tlmDec_of_length {s : State} (h : s.ops.inLen.toNat = 8) :
    exec .tlmDec s = .next (finish 0 false { s with res := { s.res with tlm := some (telemetryMessage s) } }) :=
  if_pos ((lengthIs_iff 8 s).mpr h)

theorem exec_tlmDec_of_wrong_length {s : State} (h : s.ops.inLen.toNat ≠ 8) :
    exec .tlmDec s = .next (raised .malformedPacket [.tlm] s) :=
  if_neg fun length => h ((lengthIs_iff 8 s).mp length)

/-- A TLM_ENC that leaves group `OUT` valid found every channel in range and wrote its frame there. -/
theorem tlmEnc_out {s s' : State} {o : OutGroup} (run : exec .tlmEnc s = .next s') (hout : s'.res.out = some o) :
    (∀ k : Fin 4, fitsSigned16 (s.ops.rpmIn.get k) = true) ∧ o = telemetryFrame s := by
  by_cases fits : ∀ k : Fin 4, fitsSigned16 (s.ops.rpmIn.get k) = true
  · rw [exec_tlmEnc_of_fits fits, Host.Outcome.next.injEq] at run
    subst run
    exact ⟨fits, (Option.some.inj hout).symm⟩
  · obtain ⟨k, outOfRange⟩ := not_forall.mp fits
    rw [exec_tlmEnc_of_outOfRange (Bool.eq_false_iff.mpr outOfRange), Host.Outcome.next.injEq] at run
    subst run
    cases hout

/-- A TLM_DEC that leaves group `TLM` valid wrote the message of `IN_BUF` there. -/
theorem tlmDec_tlm {s s' : State} {g : TlmGroup} (run : exec .tlmDec s = .next s') (htlm : s'.res.tlm = some g) :
    g = telemetryMessage s := by
  by_cases length : s.ops.inLen.toNat = 8
  · rw [exec_tlmDec_of_length length, Host.Outcome.next.injEq] at run
    subst run
    exact (Option.some.inj htlm).symm
  · rw [exec_tlmDec_of_wrong_length length, Host.Outcome.next.injEq] at run
    subst run
    cases htlm

/-! ### The lanes (41_telemetry.md R143) -/

/-- The place in a frame of the low byte of lane `k`. -/
def laneLow (k : Fin 4) : Fin 8 := ⟨2 * k.val, by omega⟩

/-- The place in a frame of the high byte of lane `k`. -/
def laneHigh (k : Fin 4) : Fin 8 := ⟨2 * k.val + 1, by omega⟩

/-- Every byte of a frame belongs to one of the lanes. -/
theorem exists_lane (j : Fin 8) : ∃ k : Fin 4, j = laneLow k ∨ j = laneHigh k := by
  revert j; decide

theorem telemetryFrame_low (s : State) (k : Fin 4) :
    (telemetryFrame s).buf.get (laneLow k) = byteOf (s.ops.rpmIn.get k) 0 := by
  rw [telemetryFrame_eq]
  fin_cases k <;> rfl

theorem telemetryFrame_high (s : State) (k : Fin 4) :
    (telemetryFrame s).buf.get (laneHigh k) = byteOf (s.ops.rpmIn.get k) 1 := by
  rw [telemetryFrame_eq]
  fin_cases k <;> rfl

theorem telemetryMessage_lane (s : State) (k : Fin 4) :
    (telemetryMessage s).rpm.get k = le16 (receivedByte s (laneLow k)) (receivedByte s (laneHigh k)) := by
  rw [telemetryMessage_eq]
  fin_cases k <;> rfl

/-- A received frame that TLM_ENC wrote reads as the low halves of the operands. -/
theorem telemetryMessage_of_frame {s r : State} (same : ∀ j, receivedByte r j = (telemetryFrame s).buf.get j)
    (k : Fin 4) : (telemetryMessage r).rpm.get k = (s.ops.rpmIn.get k).setWidth 16 := by
  rw [telemetryMessage_lane, same, same, telemetryFrame_low, telemetryFrame_high, le16_bytes_word]

/-- Encoding the sign-extended readings of a frame gives its bytes back (41_telemetry.md R146). -/
theorem telemetryFrame_of_message {s r : State}
    (readings : ∀ k, r.ops.rpmIn.get k = ((telemetryMessage s).rpm.get k).signExtend 32) (j : Fin 8) :
    (telemetryFrame r).buf.get j = receivedByte s j := by
  obtain ⟨k, rfl | rfl⟩ := exists_lane j
  · rw [telemetryFrame_low, readings, byteOf_signExtend_half _ (by decide), telemetryMessage_lane, byteOf_le16_0]
  · rw [telemetryFrame_high, readings, byteOf_signExtend_half _ (by decide), telemetryMessage_lane, byteOf_le16_1]

end Sys2Proof.Machine
end

section
/-! PROOF. The statements of the telemetry codec. -/

open Sys2Proof Sys2Proof.Machine

/-- Settles O20: the bytes of a lane are the low bytes of its own channel. -/
theorem telemetryLanesAreIndependent : Obligations.TelemetryLanesAreIndependent := by
  unfold Obligations.TelemetryLanesAreIndependent
  constructor
  · intro s t s' t' o p k same hrun hrun' hout hout'
    obtain ⟨-, rfl⟩ := tlmEnc_out hrun hout
    obtain ⟨-, rfl⟩ := tlmEnc_out hrun' hout'
    constructor
    · exact (telemetryFrame_low s k).trans (same ▸ (telemetryFrame_low t k).symm)
    · exact (telemetryFrame_high s k).trans (same ▸ (telemetryFrame_high t k).symm)
  · intro s s' k outOfRange hrun
    rw [exec_tlmEnc_of_outOfRange outOfRange, Host.Outcome.next.injEq] at hrun
    subst hrun
    exact ⟨rfl, statusErr_statusDone _ false⟩

/-- Settles O22: a lane holds the low half of its channel, which is the channel where the encoder accepts it and the
reading itself where the channel is a reading sign-extended. -/
theorem telemetryRoundTrip : Obligations.TelemetryRoundTrip := by
  unfold Obligations.TelemetryRoundTrip
  constructor
  · intro s s' r o hrun _ hout hlen hbytes
    obtain ⟨fits, rfl⟩ := tlmEnc_out hrun hout
    have length : r.ops.inLen.toNat = 8 := by rw [hlen]; rfl
    refine ⟨_, telemetryMessage r, exec_tlmDec_of_length length, rfl, fun k => ?_⟩
    rw [telemetryMessage_of_frame hbytes, toInt_setWidth_of_fits (fits k)]
  · intro s s' r g hrun _ htlm readings
    obtain rfl := tlmDec_tlm hrun htlm
    have fits (k : Fin 4) : fitsSigned16 (r.ops.rpmIn.get k) = true := by
      rw [readings, fitsSigned16_signExtend]
    exact ⟨_, telemetryFrame r, exec_tlmEnc_of_fits fits, rfl, rfl, telemetryFrame_of_message readings⟩

/-- Settles O19: the frame of TLM_ENC byte by byte, and the range of a channel by its bits 31:15. -/
theorem tlmEncPacksOrRefuses : Obligations.TlmEncPacksOrRefuses := by
  unfold Obligations.TlmEncPacksOrRefuses
  refine ⟨fun s => ⟨?packs, ?refuses⟩, ?bits⟩
  case packs =>
    intro inRange
    rw [exec_tlmEnc_of_fits fun k => (fitsSigned16_iff _).mpr (inRange k), finish_ok_eq, telemetryFrame_eq]
    rfl
  case refuses =>
    rintro ⟨k, outOfRange⟩
    exact exec_tlmEnc_of_outOfRange ((fitsSigned16_eq_false_iff _).mpr outOfRange)
  case bits =>
    intro v
    rw [← fitsSigned16_iff, fitsSigned16_iff_bits]

/-- Settles O21: the message of TLM_DEC register by register. -/
theorem tlmDecReadsTheChannels : Obligations.TlmDecReadsTheChannels := by
  unfold Obligations.TlmDecReadsTheChannels
  intro s
  constructor
  · intro hlen
    have length : s.ops.inLen.toNat = 8 := by rw [hlen]; rfl
    rw [exec_tlmDec_of_length length, finish_ok_eq, telemetryMessage_eq]
    rfl
  · intro hlen
    exact exec_tlmDec_of_wrong_length fun length => hlen (BitVec.eq_of_toNat_eq length)

end

section
/-! PROOF. The value registry and the value payloads: FMT_LOOKUP, VAL_DEC and VAL_ENC on every state, and what
re-encoding a payload and decoding an encoded value give back (42_value_registry.md R156 to R167). -/

namespace Sys2Proof

/-- A format is the one its code names (30_encoding.md R88). -/
theorem WireFormat.eq_ofCode {f : WireFormat} {c : BitVec 2} (h : f.code = c) : f = WireFormat.ofCode c :=
  h ▸ (ofCode_code f).symm

end Sys2Proof

namespace Sys2Proof.Machine

/-! ### The commands (42_value_registry.md R156, R160, R165) -/

/-- The format of `VID` depends on the build and on `VID` alone (10_state.md R42). -/
theorem vidFormat_congr {r s : State} (hparams : r.params = s.params) (hvid : r.ops.vid = s.ops.vid) :
    vidFormat r = vidFormat s := by
  rw [vidFormat, vidFormat, hparams, hvid]

theorem exec_fmtLookup_of_unregistered {s : State} (h : vidFormat s = none) :
    exec .fmtLookup s = .next (raised .unregisteredValueId [.fmt] s) := by
  simp only [exec, execFmtLookup, h]

theorem exec_fmtLookup_of_registered {s : State} {f : WireFormat} (h : vidFormat s = some f) :
    exec .fmtLookup s = .next (finish 0 false { s with res := { s.res with fmt := some f.code } }) := by
  simp only [exec, execFmtLookup, h]

theorem exec_valDec_of_wrong_length {s : State} (h : s.ops.inLen.toNat ≠ 4) :
    exec .valDec s = .next (raised .invalidPayloadLength [.val] s) :=
  congrArg Host.Outcome.next (if_neg fun length => h ((lengthIs_iff 4 s).mp length))

theorem exec_valDec_of_unregistered {s : State} (hlen : s.ops.inLen.toNat = 4) (h : vidFormat s = none) :
    exec .valDec s = .next (raised .unregisteredValueId [.val] s) := by
  simp only [exec, execValDec, h]
  exact congrArg Host.Outcome.next (if_pos ((lengthIs_iff 4 s).mpr hlen))

theorem exec_valDec_of_registered {s : State} {f : WireFormat} (hlen : s.ops.inLen.toNat = 4)
    (h : vidFormat s = some f) : exec .valDec s = .next (tagged f.code (payloadValue f s) s) := by
  simp only [exec, execValDec, h]
  exact congrArg Host.Outcome.next (if_pos ((lengthIs_iff 4 s).mpr hlen))

theorem exec_valEnc_of_present {s : State} (h : s.params.hasValEnc = true) : exec .valEnc s = valEncPresent s :=
  ifPresent_of_present h valEncPresent s

theorem exec_valEnc_of_unregistered {s : State} (present : s.params.hasValEnc = true) (h : vidFormat s = none) :
    exec .valEnc s = .next (raised .unregisteredValueId [.out] s) := by
  simp only [exec_valEnc_of_present present, valEncPresent, h]

theorem exec_valEnc_of_fits {s : State} {f : WireFormat} (present : s.params.hasValEnc = true)
    (h : vidFormat s = some f) (fits : valueFits f s.ops.valIn = true) : exec .valEnc s =
      .next (finish 0 false { s with res := { s.res with out := some (payloadFrame f s.ops.valIn) } }) := by
  simp only [exec_valEnc_of_present present, valEncPresent, h, if_pos fits]

theorem exec_valEnc_of_outOfRange {s : State} {f : WireFormat} (present : s.params.hasValEnc = true)
    (h : vidFormat s = some f) (outOfRange : valueFits f s.ops.valIn = false) :
    exec .valEnc s = .next (raised .valueOutOfRange [.out] s) := by
  simp only [exec_valEnc_of_present present, valEncPresent, h, if_neg (Bool.eq_false_iff.mp outOfRange)]

/-- A VAL_DEC that leaves group `VAL` valid wrote there the payload's value under one of the formats. -/
theorem valDec_val {s t : State} {g : ValGroup} (run : exec .valDec s = .next t) (hval : t.res.val = some g) :
    ∃ f : WireFormat, g = ⟨f.code, payloadValue f s⟩ := by
  by_cases hlen : s.ops.inLen.toNat = 4
  · cases hfmt : vidFormat s with
    | none =>
      rw [exec_valDec_of_unregistered hlen hfmt, Host.Outcome.next.injEq] at run
      subst run
      cases hval
    | some f =>
      rw [exec_valDec_of_registered hlen hfmt, Host.Outcome.next.injEq] at run
      subst run
      exact ⟨f, (Option.some.inj hval).symm⟩
  · rw [exec_valDec_of_wrong_length hlen, Host.Outcome.next.injEq] at run
    subst run
    cases hval

/-- A VAL_ENC that succeeds on a registered id found a value that fits and wrote its payload to group `OUT`. -/
theorem valEnc_out {s s' : State} {o : OutGroup} {f : WireFormat} (run : exec .valEnc s = .next s')
    (hok : statusErr s'.status = 0) (hout : s'.res.out = some o) (hfmt : vidFormat s = some f) :
    valueFits f s.ops.valIn = true ∧ o = payloadFrame f s.ops.valIn := by
  cases present : s.params.hasValEnc
  · rw [exec_of_unit_absent (i := .valEnc) present, Host.Outcome.next.injEq] at run
    subst run
    exact absurd hok (statusErr_raised_ne_zero _ _ s)
  cases fits : valueFits f s.ops.valIn
  · rw [exec_valEnc_of_outOfRange present hfmt fits, Host.Outcome.next.injEq] at run
    subst run
    exact absurd hok (statusErr_raised_ne_zero _ _ s)
  · rw [exec_valEnc_of_fits present hfmt fits, Host.Outcome.next.injEq] at run
    subst run
    exact ⟨rfl, (Option.some.inj hout).symm⟩

/-! ### The range of a tagged value (42_value_registry.md R163) -/

theorem fitsUnsigned16_eq_false_iff (v : Word) : fitsUnsigned16 v = false ↔ 65535 < v.toNat := by
  rw [← Bool.not_eq_true, fitsUnsigned16_iff, Nat.not_le]

/-- What a payload reads as under a format fits the format: VAL_ENC accepts it (42_value_registry.md R167). -/
theorem valueFits_payloadValue (f : WireFormat) (s : State) : valueFits f (payloadValue f s) = true := by
  cases f with
  | signedShort16 => exact fitsSigned16_signExtend _
  | unsignedShort16 => exact fitsUnsigned16_setWidth _
  | float32 => rfl
  | bool8 => rfl

theorem boolValue_eq_zero_or_one (s : State) : boolValue s = 0 ∨ boolValue s = 1 :=
  ite_eq_or_eq _ 0 1

/-- The tagged value of a payload is in the range of its tag (42_value_registry.md R163). -/
theorem valOk_payloadValue (f : WireFormat) (s : State) : ValOk ⟨f.code, payloadValue f s⟩ where
  signed tag := by
    obtain rfl : f = .signedShort16 := WireFormat.eq_ofCode tag
    exact (fitsSigned16_iff _).mp (valueFits_payloadValue .signedShort16 s)
  unsigned tag := by
    obtain rfl : f = .unsignedShort16 := WireFormat.eq_ofCode tag
    exact (fitsUnsigned16_iff _).mp (valueFits_payloadValue .unsignedShort16 s)
  boolean tag := by
    obtain rfl : f = .bool8 := WireFormat.eq_ofCode tag
    exact boolValue_eq_zero_or_one s

/-! ### Payloads and values (42_value_registry.md R167) -/

/-- A payload VAL_ENC can have written: pad bytes 0x00, and the truth of a `Bool8` as 0x00 or 0x01. -/
def CanonicalPayload (f : WireFormat) (b0 b1 b2 b3 : Byte) : Prop :=
  match f with
  | .signedShort16 | .unsignedShort16 => b2 = 0x00 ∧ b3 = 0x00
  | .float32 => True
  | .bool8 => (b0 = 0x00 ∨ b0 = 0x01) ∧ b1 = 0x00 ∧ b2 = 0x00 ∧ b3 = 0x00

/-- The encoder writes canonical payloads only. -/
theorem payloadFrame_canonical (f : WireFormat) (v : Word) :
    CanonicalPayload f (payloadFrame f v).buf[0] (payloadFrame f v).buf[1] (payloadFrame f v).buf[2]
      (payloadFrame f v).buf[3] := by
  cases f with
  | signedShort16 => exact ⟨rfl, rfl⟩
  | unsignedShort16 => exact ⟨rfl, rfl⟩
  | float32 => trivial
  | bool8 => exact ⟨ite_eq_or_eq _ _ _, rfl, rfl, rfl⟩

/-- The low bytes of a value whose low half is made of two bytes are those bytes. -/
theorem byteOf_of_low_half {v : Word} {a b : Byte} (h : v.setWidth 16 = le16 a b) : byteOf v 0 = a ∧ byteOf v 1 = b := by
  rw [← byteOf_setWidth_half v (i := 0) (by decide), ← byteOf_setWidth_half v (i := 1) (by decide), h]
  exact ⟨byteOf_le16_0 a b, byteOf_le16_1 a b⟩

theorem signedShortValue_bytes (s : State) :
    byteOf (signedShortValue s) 0 = s.ops.inBuf[0] ∧ byteOf (signedShortValue s) 1 = s.ops.inBuf[1] :=
  byteOf_of_low_half (setWidth_signExtend _)

theorem unsignedShortValue_bytes (s : State) :
    byteOf (unsignedShortValue s) 0 = s.ops.inBuf[0] ∧ byteOf (unsignedShortValue s) 1 = s.ops.inBuf[1] :=
  byteOf_of_low_half (by rw [unsignedShortValue, BitVec.setWidth_setWidth_of_le _ (by decide), BitVec.setWidth_eq]; rfl)

theorem floatValue_bytes (s : State) :
    byteOf (floatValue s) 0 = s.ops.inBuf[0] ∧ byteOf (floatValue s) 1 = s.ops.inBuf[1]
      ∧ byteOf (floatValue s) 2 = s.ops.inBuf[2] ∧ byteOf (floatValue s) 3 = s.ops.inBuf[3] :=
  ⟨byteOf_le32_0 _ _ _ _, byteOf_le32_1 _ _ _ _, byteOf_le32_2 _ _ _ _, byteOf_le32_3 _ _ _ _⟩

theorem boolValue_eq_zero_iff (s : State) : boolValue s = 0 ↔ s.ops.inBuf[0] = 0x00 :=
  Ne.ite_eq_left_iff (by decide)

/-- The truth of a byte, written as a byte, is the byte itself where it is 0x00 or 0x01. -/
theorem truthByte_eq_iff (b : Byte) : (if b = 0x00 then 0x00 else 0x01) = b ↔ b = 0x00 ∨ b = 0x01 := by
  revert b; decide

/-- Encoding what a payload reads as gives its four bytes back exactly where the payload is canonical. -/
theorem payloadFrame_payloadValue_eq_iff (f : WireFormat) (s : State) :
    ((payloadFrame f (payloadValue f s)).buf[0] = s.ops.inBuf[0]
        ∧ (payloadFrame f (payloadValue f s)).buf[1] = s.ops.inBuf[1]
        ∧ (payloadFrame f (payloadValue f s)).buf[2] = s.ops.inBuf[2]
        ∧ (payloadFrame f (payloadValue f s)).buf[3] = s.ops.inBuf[3])
      ↔ CanonicalPayload f s.ops.inBuf[0] s.ops.inBuf[1] s.ops.inBuf[2] s.ops.inBuf[3] := by
  cases f with
  | signedShort16 =>
    obtain ⟨low, high⟩ := signedShortValue_bytes s
    exact (and_iff_right low).trans ((and_iff_right high).trans (and_congr eq_comm eq_comm))
  | unsignedShort16 =>
    obtain ⟨low, high⟩ := unsignedShortValue_bytes s
    exact (and_iff_right low).trans ((and_iff_right high).trans (and_congr eq_comm eq_comm))
  | float32 => exact iff_true_intro (floatValue_bytes s)
  | bool8 =>
    have truth : (if boolValue s = 0 then (0x00 : Byte) else 0x01) = s.ops.inBuf[0]
        ↔ s.ops.inBuf[0] = 0x00 ∨ s.ops.inBuf[0] = 0x01 := by
      simp only [boolValue_eq_zero_iff]
      exact truthByte_eq_iff _
    exact and_congr truth (and_congr eq_comm (and_congr eq_comm eq_comm))

/-- A payload that VAL_ENC wrote reads as the value, under `Bool8` as its truth. -/
theorem payloadValue_of_frame {r : State} {f : WireFormat} {v : Word} (fits : valueFits f v = true)
    (same : ∀ j : Fin 4, r.ops.inBuf.get (j.castLE (by decide)) = (payloadFrame f v).buf.get (j.castLE (by decide))) :
    payloadValue f r = if f = .bool8 then (if v = 0 then 0 else 1) else v := by
  have byte (j : Fin 4) : inByte r (j.castLE (by decide)) = payloadByte f v j :=
    (same j).trans (Vector.getElem_ofFn _)
  cases f with
  | signedShort16 =>
    calc signedShortValue r = (le16 (byteOf v 0) (byteOf v 1)).signExtend 32 :=
          congrArg (BitVec.signExtend 32) (congrArg₂ le16 (byte 0) (byte 1))
      _ = v := by rw [le16_bytes_word, signExtend_setWidth_of_fits fits]
  | unsignedShort16 =>
    calc unsignedShortValue r = (le16 (byteOf v 0) (byteOf v 1)).setWidth 32 :=
          congrArg (BitVec.setWidth 32) (congrArg₂ le16 (byte 0) (byte 1))
      _ = v := by rw [le16_bytes_word, setWidth_setWidth_of_fits fits]
  | float32 =>
    calc floatValue r = le32 (inByte r 0) (inByte r 1) (inByte r 2) (inByte r 3) := rfl
      _ = le32 (byteOf v 0) (byteOf v 1) (byteOf v 2) (byteOf v 3) :=
          congr (congr (congrArg₂ le32 (byte 0) (byte 1)) (byte 2)) (byte 3)
      _ = v := le32_bytes v
  | bool8 =>
    have truth : inByte r 0 = if v = 0 then 0x00 else 0x01 := byte 0
    change (if inByte r 0 = 0 then 0 else 1) = if v = 0 then 0 else 1
    rw [truth]
    by_cases hv : v = 0 <;> simp [hv]

end Sys2Proof.Machine
end

section
/-! PROOF. The statements of the value registry. -/

open Sys2Proof Sys2Proof.Machine

/-- Settles O26: whatever VAL_DEC leaves is the payload's value under one of the formats. -/
theorem taggedValueIsInRangeOfItsTag : Obligations.TaggedValueIsInRangeOfItsTag := by
  unfold Obligations.TaggedValueIsInRangeOfItsTag
  intro s t g hrun hval
  obtain ⟨f, rfl⟩ := valDec_val hrun hval
  obtain ⟨signed, unsigned, boolean⟩ := valOk_payloadValue f s
  exact ⟨signed, unsigned, boolean⟩

/-- Settles O29: what a payload reads as fits its format and encodes to a canonical payload; a payload VAL_ENC wrote
reads as the value encoded. -/
theorem valueRoundTrip : Obligations.ValueRoundTrip := by
  unfold Obligations.ValueRoundTrip
  intro canonical
  constructor
  · intro s f hlen present hfmt
    have length : s.ops.inLen.toNat = 4 := by rw [hlen]; rfl
    refine ⟨_, _, exec_valDec_of_registered length hfmt, statusErr_statusDone 0 false, rfl, ?_⟩
    intro r hparams hvid hvalIn
    have registered : vidFormat r = some f := (vidFormat_congr hparams hvid).trans hfmt
    have fits : valueFits f r.ops.valIn = true := hvalIn ▸ valueFits_payloadValue f s
    refine ⟨_, payloadFrame f r.ops.valIn, exec_valEnc_of_fits (hparams ▸ present) registered fits,
      statusErr_statusDone 0 false, rfl, rfl, payloadFrame_canonical f _, ?_⟩
    rw [hvalIn]
    exact payloadFrame_payloadValue_eq_iff f s
  · intro s s' r o f hrun hok hout hfmt hparams hvid hlen hbytes
    obtain ⟨fits, rfl⟩ := valEnc_out hrun hok hout hfmt
    have length : r.ops.inLen.toNat = 4 := by rw [hlen]; rfl
    have registered : vidFormat r = some f := (vidFormat_congr hparams hvid).trans hfmt
    exact ⟨_, _, exec_valDec_of_registered length registered, statusErr_statusDone 0 false, rfl,
      payloadValue_of_frame fits hbytes⟩

/-- Settles O24: by the entry of `VID`. -/
theorem fmtLookupAnswersTheRegistry : Obligations.FmtLookupAnswersTheRegistry := by
  unfold Obligations.FmtLookupAnswersTheRegistry
  intro s
  cases hfmt : Registry.formatOf s.params.registry s.ops.vid with
  | none => exact exec_fmtLookup_of_unregistered hfmt
  | some f =>
    rw [exec_fmtLookup_of_registered hfmt, finish_ok_eq]
    cases f <;> rfl

/-- Settles O25: by the length, then the entry of `VID`, then its format. -/
theorem valDecInterpretsThePayload : Obligations.ValDecInterpretsThePayload := by
  unfold Obligations.ValDecInterpretsThePayload
  intro s done
  constructor
  · intro hlen
    exact exec_valDec_of_wrong_length fun length => hlen (BitVec.eq_of_toNat_eq length)
  · intro hlen
    have length : s.ops.inLen.toNat = 4 := by rw [hlen]; rfl
    cases hfmt : Registry.formatOf s.params.registry s.ops.vid with
    | none => exact exec_valDec_of_unregistered length hfmt
    | some f =>
      rw [exec_valDec_of_registered length hfmt]
      cases f with
      | signedShort16 | unsignedShort16 | float32 => rfl
      | bool8 =>
        simp only [ne_eq, ite_not]
        rfl

/-- Settles O28: by the entry of `VID`, then its format, then the range of the shorts. -/
theorem valEncProducesThePayload : Obligations.ValEncProducesThePayload := by
  unfold Obligations.ValEncProducesThePayload
  intro s present v done
  have written {f : WireFormat} (hfmt : vidFormat s = some f) (fits : valueFits f v = true) :
      exec .valEnc s = .next (done (some (payloadFrame f v)) 0x80) := exec_valEnc_of_fits present hfmt fits
  cases hfmt : Registry.formatOf s.params.registry s.ops.vid with
  | none => exact exec_valEnc_of_unregistered present hfmt
  | some f =>
    cases f with
    | signedShort16 =>
      dsimp only
      split
      next outOfRange => exact exec_valEnc_of_outOfRange present hfmt ((fitsSigned16_eq_false_iff v).mpr outOfRange)
      next inRange => exact written hfmt ((fitsSigned16_iff v).mpr (by omega))
    | unsignedShort16 =>
      dsimp only
      split
      next outOfRange => exact exec_valEnc_of_outOfRange present hfmt ((fitsUnsigned16_eq_false_iff v).mpr outOfRange)
      next inRange => exact written hfmt ((fitsUnsigned16_iff v).mpr (Nat.not_lt.mp inRange))
    | float32 => exact written hfmt rfl
    | bool8 =>
      simp only [ne_eq, ite_not]
      exact written hfmt rfl

end

section
/-! PROOF. VEC2_NEW on every state and the clamp as a comparison of magnitude bits (46_companion_vec2.md R181, R182). -/

namespace Sys2Proof.Machine

/-- A number whose magnitude is beyond 1.0 becomes the limit on its own side of zero. -/
theorem clampNumber_of_magnitude_gt {v : Word} (beyond : 2 ^ 149 < floatMagnitude v) :
    clampNumber v = if v.getLsbD 31 then floatMinusOne else floatOne := by
  rw [clampNumber, floatNumber_one, floatNumber_minusOne, floatNumber]
  cases v.getLsbD 31 with
  | true =>
    have notAbove : ¬ (2 ^ 149 : Int) < -(floatMagnitude v : Int) := by omega
    have below : -(floatMagnitude v : Int) < -2 ^ 149 := by omega
    simp only [if_true, if_neg notAbove, if_pos below]
  | false =>
    have above : (2 ^ 149 : Int) < floatMagnitude v := by omega
    simp only [Bool.false_eq_true, if_false, if_pos above]

/-- A number whose magnitude is at most 1.0 passes unchanged. -/
theorem clampNumber_of_magnitude_le {v : Word} (within : floatMagnitude v ≤ 2 ^ 149) : clampNumber v = v := by
  obtain ⟨lower, upper⟩ : -2 ^ 149 ≤ floatNumber v ∧ floatNumber v ≤ 2 ^ 149 := by
    rw [floatNumber]
    split <;> omega
  rw [clampNumber, floatNumber_one, floatNumber_minusOne, if_neg (Int.not_lt.mpr upper),
    if_neg (Int.not_lt.mpr lower)]

/-- The clamp read off bits 30:0 and the sign bit of the pattern. -/
theorem clampNumber_eq (v : Word) : clampNumber v =
    if 0x3F800000 < (v.setWidth 31 : BitVec 31).toNat then (if v.getLsbD 31 then floatMinusOne else floatOne)
    else v := by
  split
  next beyond => exact clampNumber_of_magnitude_gt ((one_lt_floatMagnitude_iff v).mpr beyond)
  next within => exact clampNumber_of_magnitude_le (Nat.le_of_not_lt (mt (one_lt_floatMagnitude_iff v).mp within))

/-- The draw decides NaN components only (46_companion_vec2.md R183). -/
theorem clamp_of_not_nan {v : Word} (h : ¬ isNaN v = true) (nanDraw : Word) : clamp nanDraw v = clampNumber v :=
  if_neg h

theorem exec_vec2New_of_present {s : State} (h : s.params.hasVec2 = true) : exec .vec2New s = vec2NewPresent s :=
  ifPresent_of_present h vec2NewPresent s

end Sys2Proof.Machine

end

section
/-! PROOF. The statement of the Vec2 companion. -/

open Sys2Proof Sys2Proof.Machine

/-- Settles O32: VEC2_NEW clamps each operand on its own, and the clamp of a number is read off its magnitude bits. -/
theorem vec2NewClampsEachComponent : Obligations.Vec2NewClampsEachComponent := by
  unfold Obligations.Vec2NewClampsEachComponent
  intro s present clamped nan
  have component (nanDraw : Word) {v : Word} (number : ¬ nan v) : clamp nanDraw v = clamped v :=
    (clamp_of_not_nan (mt (isNaN_iff v).mp number) nanDraw).trans (clampNumber_eq v)
  exact ⟨_, _, exec_vec2New_of_present present, component _, component _⟩

end

section
/-! PROOF. What every answer of a command says of `STATUS`, the valid bits and the timer (60_exceptions.md R195, R196,
R219), and that a command outside the timer's three does the same whatever timer there is. -/

namespace Sys2Proof.Machine

/-! ### The status and the groups an error leaves -/

theorem statusDone_quiet (e : BitVec 4) : statusDone e false = 0x80 ||| e.setWidth 8 := by
  revert e; decide

theorem CommandError.code_eq_six_iff (e : CommandError) : e.code = 6 ↔ e = .illegalCommand := by
  cases e <;> decide

theorem raised_illegal_eq (s : State) :
    raised .illegalCommand [] s = { s with status := 0x86, draw := s.draw + 1 } := rfl

theorem sameGroup_trans {s t u : State} {g : Group} (hst : sameGroup s t g) (htu : sameGroup t u g) :
    sameGroup s u g := by
  cases g <;> exact Eq.trans htu hst

theorem sameGroup_invalidate (s : State) {g x : Group} (h : g ≠ x) :
    sameGroup s { s with res := s.res.invalidate x } g := by
  revert h
  cases x <;> cases g <;> simp [sameGroup, Results.invalidate]

/-- An error keeps every group it does not invalidate (60_exceptions.md R196). -/
theorem sameGroup_raised (e : CommandError) {gs : List Group} {g : Group} (s : State) (h : g ∉ gs) :
    sameGroup s (raised e gs s) g := by
  induction gs generalizing s with
  | nil => cases g <;> rfl
  | cons x gs ih =>
    rw [List.mem_cons, not_or] at h
    obtain ⟨notHead, notTail⟩ := h
    exact sameGroup_trans (sameGroup_invalidate s notHead) (ih _ notTail)

theorem valid_raised_of_mem (e : CommandError) {gs : List Group} {g : Group} (s : State) (h : g ∈ gs) :
    (raised e gs s).res.valid g = false := by
  rw [raised_res, valid_invalidateAll, if_pos h]

/-! ### What an answer says -/

theorem Answer.statusCatchup_eq_false {i : Instr} {s t : State} (h : Answer i s t) (hi : i ≠ .tmrCheck) :
    statusCatchup t.status = false := by
  cases h with
  | error | illegal => rw [raised_status, statusCatchup_statusDone]
  | success _ _ _ _ _ _ _ _ catchup =>
    rw [finish_status, statusCatchup_statusDone]
    exact Bool.eq_false_iff.mpr (mt catchup hi)

theorem Answer.timer_eq {i : Instr} {s t : State} (h : Answer i s t) (hi : i ∉ [.tmrInit, .tmrCheck, .tmrReset]) :
    t.timer = s.timer := by
  cases h with
  | error | illegal => rfl
  | success _ _ _ _ _ _ _ timerKept _ => exact timerKept hi

theorem Answer.valid_of_ok {i : Instr} {s t : State} (h : Answer i s t) (hok : statusErr t.status = 0) :
    ∀ g ∈ ownedGroups i, t.res.valid g = true := by
  cases h with
  | error | illegal => exact absurd hok (statusErr_raised_ne_zero _ _ s)
  | success _ _ _ _ _ own => exact own

theorem Answer.eq_raised_of_error {i : Instr} {s t : State} (h : Answer i s t) (hfail : statusErr t.status ≠ 0)
    (hlegal : statusErr t.status ≠ 6) : ∃ e, t = raised e (ownedGroups i) s := by
  cases h with
  | error e _ => exact ⟨e, rfl⟩
  | illegal => exact absurd (statusErr_statusDone 6 false) hlegal
  | success => exact absurd (statusErr_statusDone 0 _) hfail

theorem Answer.eq_raised_of_illegal {i : Instr} {s t : State} (h : Answer i s t) (hsix : statusErr t.status = 6) :
    t = raised .illegalCommand [] s := by
  cases h with
  | error e he =>
    rw [raised_status, statusErr_statusDone, CommandError.code_eq_six_iff] at hsix
    exact absurd hsix he
  | illegal => rfl
  | success =>
    rw [finish_status, statusErr_statusDone] at hsix
    exact absurd hsix (by decide)

/-! ### Commands that do not read the timer -/

/-- A meaning that does the same whatever timer there is, and hands the timer on. -/
def IgnoresTimer (m : State → Result) : Prop :=
  ∀ (s t : State) (tm : Option Timer), m s = .next t → m { s with timer := tm } = .next { t with timer := tm }

/-- A next state that is the same whatever timer there is, but for that timer. -/
def CarriesTimer (f : State → State) : Prop :=
  ∀ (s : State) (tm : Option Timer), f { s with timer := tm } = { f s with timer := tm }

theorem carriesTimer_ite {c : State → Bool} {a b : State → State} (hc : ∀ s tm, c { s with timer := tm } = c s)
    (ha : CarriesTimer a) (hb : CarriesTimer b) : CarriesTimer fun s => if c s then a s else b s := by
  intro s tm
  dsimp only
  rw [hc]
  cases c s with
  | true => exact ha s tm
  | false => exact hb s tm

/-- A meaning that consults the registry, which no timer is part of. -/
theorem carriesTimer_byFormat {a : State → State} {b : WireFormat → State → State} (ha : CarriesTimer a)
    (hb : ∀ f, CarriesTimer (b f)) : CarriesTimer fun s => match vidFormat s with
      | none => a s
      | some f => b f s := by
  intro s tm
  have same : vidFormat { s with timer := tm } = vidFormat s := rfl
  dsimp only
  rw [same]
  cases vidFormat s with
  | none => exact ha s tm
  | some f => exact hb f s tm

theorem ignoresTimer_next {f : State → State} (h : CarriesTimer f) : IgnoresTimer fun s => .next (f s) := by
  rintro s t tm run
  cases run
  exact congrArg Host.Outcome.next (h s tm)

theorem ignoresTimer_ite {c : State → Bool} {a b : State → Result} (hc : ∀ s tm, c { s with timer := tm } = c s)
    (ha : IgnoresTimer a) (hb : IgnoresTimer b) : IgnoresTimer fun s => if c s then a s else b s := by
  intro s t tm run
  dsimp only at run ⊢
  rw [hc]
  split at run
  next yes => rw [if_pos yes]; exact ha s t tm run
  next no => rw [if_neg no]; exact hb s t tm run

theorem ignoresTimer_raise (e : CommandError) (groups : List Group) : IgnoresTimer (raise e groups) :=
  ignoresTimer_next fun _ _ => rfl

theorem ignoresTimer_succeed {res : State → Results} (h : ∀ s tm, res { s with timer := tm } = res s) :
    IgnoresTimer fun s => succeed (res s) s :=
  ignoresTimer_next fun s tm => by rw [h]; rfl

/-- A check whose outcome decides between results and an error. -/
theorem ignoresTimer_checked {c : State → Bool} {res : State → Results} {e : CommandError} {groups : List Group}
    (hc : ∀ s tm, c { s with timer := tm } = c s) (hres : ∀ s tm, res { s with timer := tm } = res s) :
    IgnoresTimer fun s => if c s then succeed (res s) s else raise e groups s :=
  ignoresTimer_ite hc (ignoresTimer_succeed hres) (ignoresTimer_raise e groups)

/-- No codec, registry or Vec2 command reads the timer (60_exceptions.md R219). -/
theorem ignoresTimer_exec {i : Instr} (hi : i ∉ [.tmrInit, .tmrCheck, .tmrReset]) : IgnoresTimer (exec i) := by
  cases i with
  | tmrInit | tmrCheck | tmrReset => exact absurd (by decide) hi
  | rrEnc | rrBuild =>
    exact ignoresTimer_ite (fun _ _ => rfl) (ignoresTimer_raise _ _) (ignoresTimer_succeed fun _ _ => rfl)
  | tlmEnc | tlmDec | rrDec | noOp | read | write | store | reserved
  | signedShort16 | unsignedShort16 | float32 | bool8 | vec2New =>
    exact ignoresTimer_checked (fun _ _ => rfl) fun _ _ => rfl
  | fmtLookup =>
    exact ignoresTimer_next (carriesTimer_byFormat (fun _ _ => rfl) fun _ _ _ => rfl)
  | valDec =>
    exact ignoresTimer_next (carriesTimer_ite (fun _ _ => rfl)
      (carriesTimer_byFormat (fun _ _ => rfl) fun _ _ _ => rfl) fun _ _ => rfl)
  | valEnc =>
    exact ignoresTimer_ite (fun _ _ => rfl)
      (ignoresTimer_next (carriesTimer_byFormat (fun _ _ => rfl) fun _ =>
        carriesTimer_ite (fun _ _ => rfl) (fun _ _ => rfl) fun _ _ => rfl))
      (ignoresTimer_raise _ _)

end Sys2Proof.Machine

open Sys2Proof Sys2Proof.Machine

/-- Settles O39: the first two clauses are read off what a command may answer, the third off its meaning. -/
theorem onlyTimerCommandsTouchTheTimer : Obligations.OnlyTimerCommandsTouchTheTimer := by
  unfold Obligations.OnlyTimerCommandsTouchTheTimer
  refine ⟨?_, ?_, ?_, applyReset_timer⟩
  · intro i s t hi run
    exact (exec_answer run).statusCatchup_eq_false hi
  · intro i s t hi run
    exact (exec_answer run).timer_eq hi
  · intro i s t tm hi run
    exact ignoresTimer_exec hi s t tm run

/-- Settles O42: a success, an error and an illegal command are the three answers, told apart by `STATUS.ERR`. -/
theorem validBitsTellSuccessFromFailure : Obligations.ValidBitsTellSuccessFromFailure := by
  unfold Obligations.ValidBitsTellSuccessFromFailure
  intro i s t run
  have answer := exec_answer run
  refine ⟨answer.valid_of_ok, ?_, answer.eq_raised_of_illegal⟩
  intro hfail hlegal
  obtain ⟨e, rfl⟩ := answer.eq_raised_of_error hfail hlegal
  refine ⟨fun g => valid_raised_of_mem e s, fun g => sameGroup_raised e s, ?_⟩
  rw [raised_status, statusErr_statusDone, ← statusDone_quiet]
  rfl

end

section
/-! PROOF. The commands of the timer (60_exceptions.md R211, R213, R217): the guards of their meanings, and the exact
naturals of R210 against the 64-bit sums of the statements. -/

namespace Sys2Proof.Machine

theorem exec_tmrInit_of_zero {s : State} (present : s.params.hasTimer = true) (h : s.ops.periodIn = 0) :
    exec .tmrInit s = .next (raised .valueOutOfRange [] s) :=
  (ifPresent_of_present present _ s).trans (if_pos h)

theorem exec_tmrInit_of_nonzero {s : State} (present : s.params.hasTimer = true) (h : s.ops.periodIn ≠ 0) :
    exec .tmrInit s =
      .next (finish 0 false { s with timer := some ⟨s.ops.periodIn, Config.initDeadline s.draw⟩ }) :=
  (ifPresent_of_present present _ s).trans (if_neg h)

theorem exec_tmrCheck_of_none {s : State} (present : s.params.hasTimer = true) (h : s.timer = none) :
    exec .tmrCheck s = .next (raised .illegalCommand [] s) :=
  (ifPresent_of_present present _ s).trans (tmrCheckPresent_of_none h)

theorem exec_tmrCheck_of_some {s : State} {t : Timer} (present : s.params.hasTimer = true) (h : s.timer = some t) :
    exec .tmrCheck s = checkTimer t s :=
  (ifPresent_of_present present _ s).trans (tmrCheckPresent_of_some h)

theorem exec_tmrReset_of_present {s : State} (present : s.params.hasTimer = true) :
    exec .tmrReset s = tmrResetPresent s :=
  ifPresent_of_present present _ s

/-- The quotient of R213 by the inequalities that fix it. -/
theorem missedPeriods_eq {t : Timer} {time : Tick} {m : Nat}
    (lower : m * t.period.toNat ≤ time.toNat - t.deadline.toNat)
    (upper : time.toNat - t.deadline.toNat < (m + 1) * t.period.toNat) : missedPeriods t time = m :=
  Nat.div_eq_of_lt_le lower upper

theorem nextDeadline_eq {t : Timer} {time : Tick} {m : Nat} (h : missedPeriods t time = m) :
    nextDeadline t time = t.deadline.toNat + (m + 1) * t.period.toNat := by
  rw [nextDeadline, h]

/-- The next deadline in 64 bits (60_exceptions.md R213). -/
theorem ofNat_nextDeadline {t : Timer} {time : Tick} {m : Nat} (h : missedPeriods t time = m) :
    BitVec.ofNat 64 (nextDeadline t time) = t.deadline + BitVec.ofNat 64 (m + 1) * t.period := by
  rw [nextDeadline_eq h, BitVec.ofNat_add, BitVec.ofNat_mul, BitVec.ofNat_toNat, BitVec.ofNat_toNat,
    BitVec.setWidth_eq, BitVec.setWidth_eq]

/-- The realigned deadline in 64 bits (60_exceptions.md R217). -/
theorem ofNat_realigned (t : Timer) (time : Tick) : BitVec.ofNat 64 (realigned t time) = time + t.period := by
  rw [realigned, BitVec.ofNat_add, BitVec.ofNat_toNat, BitVec.ofNat_toNat, BitVec.setWidth_eq, BitVec.setWidth_eq]

theorem statusDone_catchup (m : Nat) : statusDone 0 (decide (0 < m)) = if m = 0 then 0x80 else 0x90 := by
  cases m with
  | zero => rfl
  | succ m => simp [statusDone]

/-- A firing check in terms of the periods missed (60_exceptions.md R213, R215). -/
theorem fire_eq {t : Timer} {s : State} {m : Nat} (h : missedPeriods t s.now = m) :
    fire t s = { s with
      res := { s.res with tmr := some ⟨true, BitVec.ofNat 64 m⟩ }
      timer := some { t with deadline := t.deadline + BitVec.ofNat 64 (m + 1) * t.period }
      status := if m = 0 then 0x80 else 0x90
      draw := s.draw + 1 } := by
  rw [← ofNat_nextDeadline h, ← statusDone_catchup, ← h]
  rfl

end Sys2Proof.Machine

open Sys2Proof Sys2Proof.Machine

/-- Settles O34: the deadline of a new timer is the free value of this command. -/
theorem tmrInitCreatesTheTimer : Obligations.TmrInitCreatesTheTimer := by
  unfold Obligations.TmrInitCreatesTheTimer
  intro s present
  exact ⟨fun hperiod => ⟨_, exec_tmrInit_of_nonzero present hperiod⟩, exec_tmrInit_of_zero present⟩

/-- Settles O35: by whether there is a timer and whether it is due. -/
theorem tmrCheckFiresWhenDue : Obligations.TmrCheckFiresWhenDue := by
  unfold Obligations.TmrCheckFiresWhenDue
  intro s present
  refine ⟨exec_tmrCheck_of_none present, fun tm htimer => ?_⟩
  rw [exec_tmrCheck_of_some present htimer]
  refine ⟨checkTimer_of_early, fun m hperiod due lower upper fits => ?_⟩
  have missed : missedPeriods tm s.now = m := missedPeriods_eq lower upper
  rw [← nextDeadline_eq missed] at fits
  rw [checkTimer_of_due hperiod due fits, fire_eq missed]

/-- Settles O37: by whether there is a timer. -/
theorem tmrResetRealignsTheDeadline : Obligations.TmrResetRealignsTheDeadline := by
  unfold Obligations.TmrResetRealignsTheDeadline
  intro s present
  rw [exec_tmrReset_of_present present]
  refine ⟨tmrResetPresent_of_none, fun tm htimer fits => ?_⟩
  rw [tmrResetPresent_of_fits htimer fits, ofNat_realigned]
  rfl

end

section
/-! PROOF. The commands on zero operands (70_reset_and_hazards.md R232): what they write, read and answer where every
operand register is as a reset leaves it, in every build. -/

namespace Sys2Proof.Machine

theorem op_lt_of_reset {s : State} (h : s.ops = .reset) : s.ops.op.toNat < 128 := by
  rw [h]
  decide

theorem inLen_of_reset {s : State} (h : s.ops = .reset) : s.ops.inLen.toNat = 0 := by
  rw [h]
  rfl

theorem inLen_ne_rrLen_of_reset {s : State} (h : s.ops = .reset) : s.ops.inLen.toNat ≠ rrLen s.params := by
  rw [inLen_of_reset h, rrLen]
  omega

theorem rrFrame_of_reset {s : State} (h : s.ops = .reset) :
    rrFrame s = ⟨#v[0, 0, 0, 0, 0, 0, 0, 0], BitVec.ofNat 8 (7 + s.params.rrPadLen.val)⟩ := by
  rw [rrFrame_eq, h]
  obtain hpad | hpad : s.params.rrPadLen = 0 ∨ s.params.rrPadLen = 1 := by omega
  · rw [hpad]; rfl
  · rw [hpad]; rfl

theorem frameAddress_of_reset {s : State} (h : s.ops = .reset) : frameAddress s = s.params.reqBase := by
  rw [frameAddress, h]
  exact BitVec.or_zero

theorem rpm_fits_of_reset {s : State} (h : s.ops = .reset) (k : Fin 4) :
    fitsSigned16 (s.ops.rpmIn.get k) = true := by
  rw [h]
  revert k
  decide

theorem telemetryFrame_of_reset {s : State} (h : s.ops = .reset) :
    telemetryFrame s = ⟨#v[0, 0, 0, 0, 0, 0, 0, 0], 8⟩ := by
  rw [telemetryFrame_eq, h]
  rfl

/-- Zero fits every format (42_value_registry.md R165). -/
theorem valueFits_zero (f : WireFormat) : valueFits f 0 = true := by
  cases f <;> decide

/-- FMT_LOOKUP leaves in group `FMT` what the registry says of `VID`, nothing for an unregistered id
(42_value_registry.md R156). -/
theorem exec_fmtLookup_fmt (s : State) :
    ∃ t, exec .fmtLookup s = .next t ∧ t.res.fmt = (vidFormat s).map WireFormat.code := by
  cases hfmt : vidFormat s with
  | none => exact ⟨_, exec_fmtLookup_of_unregistered hfmt, rfl⟩
  | some f => exact ⟨_, exec_fmtLookup_of_registered hfmt, rfl⟩

/-- VAL_ENC of a value that fits every format writes group `OUT` exactly where `VID` is registered
(42_value_registry.md R165). -/
theorem exec_valEnc_out_isSome {s : State} (present : s.params.hasValEnc = true)
    (fits : ∀ f, valueFits f s.ops.valIn = true) :
    ∃ t, exec .valEnc s = .next t ∧ t.res.out.isSome = (vidFormat s).isSome := by
  cases hfmt : vidFormat s with
  | none => exact ⟨_, exec_valEnc_of_unregistered present hfmt, rfl⟩
  | some f => exact ⟨_, exec_valEnc_of_fits present hfmt (fits f), rfl⟩

/-- TMR_CHECK is illegal where there is no timer, whether the build has the unit or not (60_exceptions.md R195). -/
theorem exec_tmrCheck_of_no_timer {s : State} (h : s.timer = none) :
    exec .tmrCheck s = .next (raised .illegalCommand [] s) := by
  cases present : s.params.hasTimer with
  | false => exact exec_of_unit_absent present
  | true => exact exec_tmrCheck_of_none present h

/-- TMR_RESET is illegal where there is no timer, whether the build has the unit or not (60_exceptions.md R195). -/
theorem exec_tmrReset_of_no_timer {s : State} (h : s.timer = none) :
    exec .tmrReset s = .next (raised .illegalCommand [] s) := by
  cases present : s.params.hasTimer with
  | false => exact exec_of_unit_absent present
  | true => rw [exec_tmrReset_of_present present, tmrResetPresent_of_none h]

/-- Zero passes the clamp unchanged (46_companion_vec2.md R182). -/
theorem clamp_zero (nanDraw : Word) : clamp nanDraw 0 = 0 :=
  (clamp_of_not_nan (by decide) nanDraw).trans (clampNumber_of_magnitude_le (Nat.zero_le _))

theorem exec_vec2New_vec_of_reset {s : State} (present : s.params.hasVec2 = true) (h : s.ops = .reset) :
    ∃ t, exec .vec2New s = .next t ∧ t.res.vec = some ⟨0, 0⟩ := by
  refine ⟨_, exec_vec2New_of_present present, ?_⟩
  change some (VecGroup.mk (clamp _ s.ops.vxIn) (clamp _ s.ops.vyIn)) = _
  rw [h]
  exact congrArg some (congrArg₂ VecGroup.mk (clamp_zero _) (clamp_zero _))

end Sys2Proof.Machine

open Sys2Proof Sys2Proof.Machine

/-- Settles O57: each command on the zero operands, no length being that of a frame or payload and no timer created. -/
theorem firstCommandsAfterReset : Obligations.FirstCommandsAfterReset := by
  unfold Obligations.FirstCommandsAfterReset
  intro p s
  have hops : s.ops = .reset := rfl
  have noTimer : s.timer = none := rfl
  have noBytes : s.ops.inLen.toNat = 0 := inLen_of_reset hops
  refine ⟨?rrEnc, ?tlmEnc, ?rrDec, ?tlmDec, ?valDec, ?fmtLookup, ?valEnc, ?rrBuild, ?tmrCheck, ?tmrReset, ?vec2New⟩
  case rrEnc => exact ⟨_, exec_rrEnc_of_fits (op_lt_of_reset hops), congrArg some (rrFrame_of_reset hops)⟩
  case tlmEnc => exact ⟨_, exec_tlmEnc_of_fits (rpm_fits_of_reset hops), congrArg some (telemetryFrame_of_reset hops)⟩
  case rrDec => exact ⟨_, exec_rrDec_of_wrong_length (inLen_ne_rrLen_of_reset hops), rfl⟩
  case tlmDec => exact ⟨_, exec_tlmDec_of_wrong_length (by rw [noBytes]; decide), rfl⟩
  case valDec => exact ⟨_, exec_valDec_of_wrong_length (by rw [noBytes]; decide), rfl⟩
  case fmtLookup => exact exec_fmtLookup_fmt s
  case valEnc => exact fun present => exec_valEnc_out_isSome present valueFits_zero
  case rrBuild =>
    exact ⟨_, exec_rrBuild_of_fits (op_lt_of_reset hops), congrArg some (frameAddress_of_reset hops)⟩
  case tmrCheck => exact ⟨_, exec_tmrCheck_of_no_timer noTimer, rfl⟩
  case tmrReset => exact ⟨_, exec_tmrReset_of_no_timer noTimer, rfl⟩
  case vec2New => exact fun present => exec_vec2New_vec_of_reset present hops

end

section
/-! PROOF. Words and rows: the decoder of each format against the encoder, and the rows of byte 0 and of the registry as
RR_DEC and VAL_DEC run them (30_encoding.md R83, R88, R95; 40_request_reply.md R115; 42_value_registry.md R160). -/

namespace Sys2Proof

/-! ### Rows and words -/

/-- Decoding the word of a well-formed row gives the row back, row by row. -/
theorem decode_encode : ∀ {i : Instr}, i.wf = true → decode i.format (encode i) = .ok i
  | .rrEnc => Laws.RoundTrip.rrEnc
  | .rrDec => Laws.RoundTrip.rrDec
  | .rrBuild => Laws.RoundTrip.rrBuild
  | .tlmEnc => Laws.RoundTrip.tlmEnc
  | .tlmDec => Laws.RoundTrip.tlmDec
  | .fmtLookup => Laws.RoundTrip.fmtLookup
  | .valDec => Laws.RoundTrip.valDec
  | .valEnc => Laws.RoundTrip.valEnc
  | .tmrInit => Laws.RoundTrip.tmrInit
  | .tmrCheck => Laws.RoundTrip.tmrCheck
  | .tmrReset => Laws.RoundTrip.tmrReset
  | .vec2New => Laws.RoundTrip.vec2New
  | .noOp success => Laws.RoundTrip.noOp success
  | .read success => Laws.RoundTrip.read success
  | .write success => Laws.RoundTrip.write success
  | .store success => Laws.RoundTrip.store success
  | .reserved success operation => Laws.RoundTrip.reserved success operation
  | .signedShort16 => Laws.RoundTrip.signedShort16
  | .unsignedShort16 => Laws.RoundTrip.unsignedShort16
  | .float32 => Laws.RoundTrip.float32
  | .bool8 => Laws.RoundTrip.bool8

theorem wf_of_format_cmd8 {i : Instr} (h : i.format = .cmd8) : i.wf = true := by
  cases i with
  | reserved => cases h
  | _ => rfl

/-- The row a byte 0 belongs to is a well-formed row of that byte (30_encoding.md R83). -/
theorem decodeByte0_row (b : Byte) :
    (decodeByte0 b).format = .rrByte0 ∧ (decodeByte0 b).wf = true ∧ encode (decodeByte0 b) = b := by
  have word {op : BitVec 7} (h : unpackOp b = op) : pack0 op (unpackSuccess b) = b := h ▸ pack0_unpack b
  unfold decodeByte0
  split_ifs with h0 h1 h2 h3
  · exact ⟨rfl, rfl, word h0⟩
  · exact ⟨rfl, rfl, word h1⟩
  · exact ⟨rfl, rfl, word h2⟩
  · exact ⟨rfl, rfl, word h3⟩
  · have reserved : 4 ≤ (unpackOp b).toNat := by bv_omega
    exact ⟨rfl, decide_eq_true reserved, word rfl⟩

/-- The row of a wire format is well-formed, and its word is the format's code (30_encoding.md R88). -/
theorem instr_row (f : WireFormat) :
    f.instr.format = .valFmt ∧ f.instr.wf = true ∧ encode f.instr = f.code.setWidth 8 := by
  cases f <;> exact ⟨rfl, rfl, rfl⟩

theorem decodeFormat_row (c : BitVec 2) :
    (decodeFormat c).format = .valFmt ∧ (decodeFormat c).wf = true ∧ encode (decodeFormat c) = c.setWidth 8 := by
  have row := instr_row (WireFormat.ofCode c)
  rwa [code_ofCode] at row

/-- A word a format accepts is the word of the row it decodes to. -/
theorem decode_row {f : Format} {w : Byte} {i : Instr} (h : decode f w = .ok i) :
    i.format = f ∧ i.wf = true ∧ encode i = w := by
  cases f with
  | cmd8 =>
    obtain ⟨format, word⟩ := encode_of_decode_cmd8 h
    exact ⟨format, wf_of_format_cmd8 format, word⟩
  | rrByte0 =>
    obtain rfl : decodeByte0 w = i := Except.ok.inj h
    exact decodeByte0_row w
  | valFmt =>
    rw [decode] at h
    split at h
    next small =>
      obtain rfl := Except.ok.inj h
      obtain ⟨format, wf, word⟩ := decodeFormat_row (w.setWidth 2)
      refine ⟨format, wf, word.trans (BitVec.eq_of_toNat_eq ?_)⟩
      rw [BitVec.toNat_setWidth, BitVec.toNat_setWidth]
      omega
    next => cases h

/-- A word of the opcode table stands for a well-formed row. -/
theorem decodeTableWord_wf {nbits w : Nat} {i : Instr} (h : decodeTableWord nbits w = some i) : i.wf = true := by
  unfold decodeTableWord at h
  split_ifs at h
  · obtain rfl := Option.some.inj h
    exact (decodeFormat_row _).2.1
  · split at h
    next hcmd =>
      obtain rfl := Option.some.inj h
      exact (decode_row hcmd).2.1
    next =>
      obtain rfl := Option.some.inj h
      exact (decodeByte0_row _).2.1

theorem decodeByte0_encode {i : Instr} (hwf : i.wf = true) (h : i.format = .rrByte0) : decodeByte0 (encode i) = i := by
  have row := decode_encode hwf
  rw [h] at row
  exact Except.ok.inj row

theorem instr_ofCode_encode {i : Instr} (h : i.format = .valFmt) :
    (WireFormat.ofCode ((encode i).setWidth 2)).instr = i := by
  cases i with
  | signedShort16 | unsignedShort16 | float32 | bool8 => rfl
  | _ => cases h

end Sys2Proof

namespace Sys2Proof.Machine

/-! ### Rows run as instructions -/

/-- A row of byte 0 run as an instruction (40_request_reply.md R121 to R125). -/
theorem exec_decodeByte0 (b : Byte) (s : State) :
    exec (decodeByte0 b) s = deliver (unpackOp b) (unpackSuccess b) (opclass (unpackOp b)) s := by
  unfold decodeByte0
  split_ifs with h0 h1 h2 h3
  · rw [h0]; rfl
  · rw [h1]; rfl
  · rw [h2]; rfl
  · rw [h3]; rfl
  · rw [opclass_of_reserved (by bv_omega)]; rfl

/-- RR_DEC runs the row of the byte 0 it finds. -/
theorem exec_rrDec_eq (s : State) : exec .rrDec s = exec (decodeByte0 (inByte s 0)) s :=
  (exec_decodeByte0 _ s).symm

/-- A format's row run as an instruction (30_encoding.md R89 to R92). -/
theorem exec_instr (f : WireFormat) (s : State) : exec f.instr s = interpret f.code (payloadValue f s) s := by
  cases f <;> rfl

/-- VAL_DEC runs the row of the format it finds. -/
theorem exec_valDec_eq {s : State} {f : WireFormat} (h : vidFormat s = some f) : exec .valDec s = exec f.instr s := by
  rw [exec_instr]
  by_cases length : s.ops.inLen.toNat = 4
  · rw [exec_valDec_of_registered length h, interpret_of_length length]
  · rw [exec_valDec_of_wrong_length length, interpret_of_wrong_length length]

/-- A message delivered, register by register. -/
theorem deliver_of_length_eq {s : State} (h : s.ops.inLen.toNat = rrLen s.params) (op : BitVec 7) (flag : Bool)
    (cls : BitVec 3) : deliver op flag cls s = .next { s with
      res := { s.res with
        rr := some
          { op := op, succ := flag, cls := cls, vid := s.ops.inBuf[2] ++ s.ops.inBuf[1]
            pay :=
              if s.params.rrPadLen = 1 then #v[s.ops.inBuf[4], s.ops.inBuf[5], s.ops.inBuf[6], s.ops.inBuf[7]]
              else #v[s.ops.inBuf[3], s.ops.inBuf[4], s.ops.inBuf[5], s.ops.inBuf[6]]
            ts := s.now } }
      status := 0x80
      draw := s.draw + 1 } := by
  rw [deliver_of_length h, finish_ok_eq, message, framePayload_eq]
  rfl

theorem formatOf_cons_self (vid : Half) (f : WireFormat) (rest : Registry) :
    Registry.formatOf ((vid, f) :: rest) vid = some f :=
  if_pos rfl

/-! ### Placing a word where the next step runs it -/

theorem issue_of_decode {code : Byte} {i : Instr} (h : decode .cmd8 code = .ok i) (s : State) :
    issue code s = exec i { s with cmd := code } := by
  simp only [issue, h]

theorem statusBusy_and_BF (status : Byte) : statusBusy (status &&& 0xBF) = false := by
  revert status; decide

/-- A command code placed by the host is run by the next step. -/
theorem step_placeCommand {code : Byte} {i : Instr} (h : decode .cmd8 code = .ok i) (s : State) :
    step (placeCommand code s) = exec i { s with status := s.status &&& 0xBF, cmd := code } := by
  rw [step_write_cmd (s := placeCommand code s) (rest := s.inbox) rfl (statusBusy_and_BF s.status), issue_of_decode h]
  rfl

end Sys2Proof.Machine

open Sys2Proof Sys2Proof.Machine

/-- Settles O1: the round trip of every row. -/
theorem decodeOfEncodeIsTheInstruction : Obligations.DecodeOfEncodeIsTheInstruction := by
  unfold Obligations.DecodeOfEncodeIsTheInstruction
  intro i hwf
  exact decode_encode hwf

/-- Settles O2: format by format. -/
theorem encodeOfDecodeIsTheWord : Obligations.EncodeOfDecodeIsTheWord := by
  unfold Obligations.EncodeOfDecodeIsTheWord
  intro f w i h
  exact decode_row h

/-- Settles O3: by evaluation of the decoder. -/
theorem wordsOfTheTablesDecode : Obligations.WordsOfTheTablesDecode := by
  unfold Obligations.WordsOfTheTablesDecode
  exact ⟨rfl, rfl, rfl, rfl, rfl, rfl, rfl, rfl, rfl, rfl⟩

/-- Settles O4: the accessors piece by piece. -/
theorem byte0AccessorsAreInverse : Obligations.Byte0AccessorsAreInverse := by
  unfold Obligations.Byte0AccessorsAreInverse
  have value : ∀ (op : BitVec 7) (s : Bool), (pack0 op s).toNat = op.toNat + (if s then 128 else 0) := by decide
  exact ⟨fun op s => ⟨unpackOp_pack0 op s, unpackSuccess_pack0 op s, value op s⟩, pack0_unpack⟩

/-- Settles O5: a write of `CMD` issues its code, and a code that decodes runs its command. -/
theorem stepRunsTheCommandWritten : Obligations.StepRunsTheCommandWritten := by
  unfold Obligations.StepRunsTheCommandWritten
  intro s code i rest hin hidle hcode
  rw [step_write_cmd hin hidle, issue_of_decode hcode]

/-- Settles O6: a step serves an access, and there is none. -/
theorem nothingPendingChangesNothing : Obligations.NothingPendingChangesNothing := by
  unfold Obligations.NothingPendingChangesNothing
  intro s hin
  rw [step, hin]

/-- Settles O8: the command placed is the row itself, RR_DEC on a frame of that row, or VAL_DEC on an id of that
format. -/
theorem placedTableWordRunsAtTheNextStep : Obligations.PlacedTableWordRunsAtTheNextStep := by
  unfold Obligations.PlacedTableWordRunsAtTheNextStep
  intro s nbits w i hword
  have hwf : i.wf = true := decodeTableWord_wf hword
  simp only [State.withFetchWord, placeTableWord, hword]
  cases hformat : i.format with
  | cmd8 =>
    have code : decode .cmd8 (encode i) = .ok i := hformat ▸ decode_encode hwf
    exact step_placeCommand code s
  | rrByte0 =>
    refine (step_placeCommand (i := .rrDec) rfl _).trans ?_
    have byte0 : (s.ops.inBuf.set 0 (encode i)).get 0 = encode i := Vector.getElem_set_self (by decide)
    rw [exec_rrDec_eq, inByte, byte0, decodeByte0_encode hwf hformat]
    rfl
  | valFmt =>
    refine (step_placeCommand (i := .valDec) rfl _).trans (Eq.trans (exec_valDec_eq (formatOf_cons_self _ _ _)) ?_)
    rw [instr_ofCode_encode hformat]
    rfl

/-- Settles O9: RR_DEC unpacks the row of byte 0. -/
theorem rrDecRunsTheRowOfByteZero : Obligations.RrDecRunsTheRowOfByteZero := by
  unfold Obligations.RrDecRunsTheRowOfByteZero
  intro s i hrow
  obtain rfl : decodeByte0 (inByte s 0) = i := Except.ok.inj hrow
  exact exec_rrDec_eq s

/-- Settles O10: VAL_DEC with a registered id is the row of its format. -/
theorem valDecRunsTheRowOfTheFormat : Obligations.ValDecRunsTheRowOfTheFormat := by
  unfold Obligations.ValDecRunsTheRowOfTheFormat
  intro s f hfmt
  exact exec_valDec_eq hfmt

/-- Settles O17: each row delivers its own code and class. -/
theorem operationRowsAreDelivered : Obligations.OperationRowsAreDelivered := by
  unfold Obligations.OperationRowsAreDelivered
  intro s flag code delivered malformed
  constructor
  · intro length
    have rows (op : BitVec 7) (cls : BitVec 3) : deliver op flag cls s = .next (delivered op cls) :=
      deliver_of_length_eq length op flag cls
    exact ⟨rows 0 0, rows 1 1, rows 2 2, rows 3 3, fun _ => rows code 4⟩
  · intro length
    have rows (op : BitVec 7) (cls : BitVec 3) : deliver op flag cls s = .next malformed :=
      deliver_of_wrong_length length op flag cls
    exact ⟨rows 0 0, rows 1 1, rows 2 2, rows 3 3, fun _ => rows code 4⟩

/-- Settles O18: byte 0 of the frame is `OP` and `SUCC` packed, which are the parts of the row's byte. -/
theorem encodersCarryEveryOperationRow : Obligations.EncodersCarryEveryOperationRow := by
  unfold Obligations.EncodersCarryEveryOperationRow
  intro s i _ _ hop hsucc
  have fits : s.ops.op.toNat < 128 := hop ▸ toNat_setWidth_op_lt _
  have byte0 : (rrFrame s).buf[0] = encode i := by
    refine (rrFrame_get s 0).trans ?_
    change pack0 (unpackOp s.ops.op) s.ops.succ = encode i
    rw [hop, hsucc, unpackOp_setWidth, pack0_unpack]
  exact ⟨_, _, rrFrame s, rrFrame s, exec_rrEnc_of_fits fits, exec_rrBuild_of_fits fits, rfl, rfl, byte0, byte0,
    statusErr_statusDone 0 false, statusErr_statusDone 0 false⟩

/-- Settles O23: 8 bytes are the length of both frames. -/
theorem bothDecodersAcceptEveryEightBytes : Obligations.BothDecodersAcceptEveryEightBytes := by
  unfold Obligations.BothDecodersAcceptEveryEightBytes
  intro s hpad hlen
  have telemetryLength : s.ops.inLen.toNat = 8 := by rw [hlen]; rfl
  have frameLength : s.ops.inLen.toNat = rrLen s.params := by rw [telemetryLength, rrLen, hpad]; rfl
  exact ⟨_, _, exec_rrDec_of_length frameLength, exec_tlmDec_of_length telemetryLength, rfl, rfl,
    statusErr_statusDone 0 false, statusErr_statusDone 0 false⟩

/-- Settles O27: each row reads the payload under its own format. -/
theorem formatRowsInterpretThePayload : Obligations.FormatRowsInterpretThePayload := by
  unfold Obligations.FormatRowsInterpretThePayload
  intro s done
  constructor
  · intro hlen
    have length : s.ops.inLen.toNat = 4 := by rw [hlen]; rfl
    have rows (f : WireFormat) : exec f.instr s = .next (done (some ⟨f.code, payloadValue f s⟩) 0x80) := by
      rw [exec_instr, interpret_of_length length]
      rfl
    refine ⟨rows .signedShort16, rows .unsignedShort16, rows .float32, ?_⟩
    simp only [ne_eq, ite_not]
    exact rows .bool8
  · intro hlen
    have rows (f : WireFormat) : exec f.instr s = .next (done none 0x83) := by
      rw [exec_instr, interpret_of_wrong_length fun length => hlen (BitVec.eq_of_toNat_eq length)]
      rfl
    exact ⟨rows .signedShort16, rows .unsignedShort16, rows .float32, rows .bool8⟩

end

section
/-! PROOF. What every command leaves alone, and the invariant of the block step by step: each group that is valid after
a command was valid before with the same registers, or the command wrote it (10_state.md R20, R21, R36, R42, R44). -/

namespace Sys2Proof.Machine

/-! ### What an answer leaves alone -/

theorem Answer.hostSideKept {i : Instr} {s t : State} (h : Answer i s t) : HostSideKept s t := by
  cases h with
  | error | illegal | success => exact ⟨rfl, rfl, rfl, rfl, rfl, rfl⟩

theorem Answer.sameGroup {i : Instr} {s t : State} {g : Group} (h : Answer i s t) (hg : g ∉ ownedGroups i) :
    sameGroup s t g := by
  cases h with
  | error e => exact sameGroup_raised e s hg
  | illegal => exact sameGroup_raised _ s List.not_mem_nil
  | success res timer c _ _ _ other =>
    have kept := other g hg
    cases g <;> exact kept

/-! ### What an answer says of `STATUS` and of the units -/

theorem Answer.statusOk {i : Instr} {s t : State} (h : Answer i s t) : StatusOk t.status := by
  cases h with
  | error e => exact statusOk_statusDone e.code_le (by simp)
  | illegal => exact statusOk_statusDone (by decide) (by simp)
  | success => exact statusOk_statusDone (by decide) fun _ => rfl

theorem Answer.statusDoneBit {i : Instr} {s t : State} (h : Answer i s t) : statusDoneBit t.status = true := by
  cases h with
  | error | illegal | success => exact statusDoneBit_statusDone _ _

theorem Answer.freshOk {i : Instr} {s t : State} (h : Answer i s t) : FreshOk t :=
  fun notDone => absurd (h.statusDoneBit.symm.trans notDone) (by decide)

theorem tmr_eq_of_sameGroup {s t : State} (h : sameGroup s t .tmr) : t.res.tmr = s.res.tmr := h

theorem vec_eq_of_sameGroup {s t : State} (h : sameGroup s t .vec) : t.res.vec = s.res.vec := h

/-- Only TMR_CHECK owns group `TMR` (10_state.md R36). -/
theorem tmr_mem_ownedGroups {i : Instr} (h : .tmr ∈ ownedGroups i) : i = .tmrCheck := by
  cases i with
  | tmrCheck => rfl
  | _ => simp [ownedGroups] at h

/-- Only VEC2_NEW owns group `VEC` (10_state.md R36). -/
theorem vec_mem_ownedGroups {i : Instr} (h : .vec ∈ ownedGroups i) : i = .vec2New := by
  cases i with
  | vec2New => rfl
  | _ => simp [ownedGroups] at h

theorem unitPresent_of_timer {p : Params} (h : p.hasTimer = false) {i : Instr}
    (hi : i ∈ [.tmrInit, .tmrCheck, .tmrReset]) : unitPresent p i = false := by
  simp only [List.mem_cons, List.not_mem_nil, or_false] at hi
  obtain rfl | rfl | rfl := hi
  · exact h
  · exact h
  · exact h

/-- A command of an absent unit is illegal and writes nothing; no other command writes for the unit
(10_state.md R21; 93_implementation_defined.md U13). -/
theorem unitsOk_exec {i : Instr} {s t : State} (h : UnitsOk s) (run : exec i s = .next t) : UnitsOk t := by
  have answer := exec_answer run
  by_cases present : unitPresent s.params i = true
  · constructor
    · intro absent
      rw [answer.hostSideKept.params] at absent
      obtain ⟨noTimer, noAnswer⟩ := h.timer absent
      have other : i ∉ [.tmrInit, .tmrCheck, .tmrReset] := fun hi =>
        absurd present (Bool.eq_false_iff.mp (unitPresent_of_timer absent hi))
      have notOwned : .tmr ∉ ownedGroups i := fun own => other (by rw [tmr_mem_ownedGroups own]; decide)
      exact ⟨(answer.timer_eq other).trans noTimer, (tmr_eq_of_sameGroup (answer.sameGroup notOwned)).trans noAnswer⟩
    · intro absent
      rw [answer.hostSideKept.params] at absent
      have notOwned : .vec ∉ ownedGroups i := fun own => by
        rw [vec_mem_ownedGroups own] at present
        exact absurd present (Bool.eq_false_iff.mp absent)
      exact (vec_eq_of_sameGroup (answer.sameGroup notOwned)).trans (h.vec absent)
  · rw [exec_of_unit_absent (Bool.eq_false_iff.mpr present), Host.Outcome.next.injEq] at run
    subst run
    exact ⟨h.timer, h.vec⟩

/-! ### What a command may write to a group -/

theorem outOk_rrFrame (s : State) : OutOk (rrFrame s) where
  len := by
    rw [len_rrFrame]
    split
    · exact .inr (.inr rfl)
    · exact .inr (.inl rfl)
  tail j hj := by
    rw [toNat_len_rrFrame, rrLen] at hj
    rw [rrFrame_get]
    exact frameByte_outside s.ops (by omega) (.inr hj)

theorem outOk_telemetryFrame (s : State) : OutOk (telemetryFrame s) where
  len := .inr (.inr rfl)
  tail j hj := absurd (show 8 ≤ j.val from hj) (by omega)

theorem width_le (f : WireFormat) : f.width ≤ Config.payLen := by
  cases f <;> decide

theorem payloadByte_tail (f : WireFormat) (v : Word) {j : Nat} (h : 4 ≤ j) : payloadByte f v j = 0 := by
  have beyond : ¬ j < f.width := Nat.not_lt.mpr ((width_le f).trans h)
  cases f with
  | bool8 => exact if_neg (by omega)
  | signedShort16 | unsignedShort16 | float32 => exact if_neg beyond

theorem outOk_payloadFrame (f : WireFormat) (v : Word) : OutOk (payloadFrame f v) where
  len := .inl rfl
  tail j hj := (Vector.getElem_ofFn j.isLt).trans (payloadByte_tail f v hj)

/-- A meaning answers one state. -/
theorem next_unique {r : Result} {t u : State} (ht : r = .next t) (hu : r = .next u) : t = u :=
  Host.Outcome.next.inj (ht.symm.trans hu)

/-- A valid group `OUT` after a command is an encoder's, or was there before. -/
theorem exec_out {i : Instr} {s t : State} {g : OutGroup} (run : exec i s = .next t) (hout : t.res.out = some g) :
    s.res.out = some g ∨ OutOk g := by
  by_cases own : .out ∈ ownedGroups i
  · cases i with
    | rrEnc =>
      obtain fits | wide := Nat.lt_or_ge s.ops.op.toNat 128
      · exact .inr (rrEnc_out fits run hout ▸ outOk_rrFrame s)
      · obtain rfl := next_unique run (exec_rrEnc_of_tooWide wide)
        cases hout
    | rrBuild =>
      obtain fits | wide := Nat.lt_or_ge s.ops.op.toNat 128
      · obtain rfl := next_unique run (exec_rrBuild_of_fits fits)
        exact .inr (Option.some.inj hout ▸ outOk_rrFrame s)
      · obtain rfl := next_unique run (exec_rrBuild_of_tooWide wide)
        cases hout
    | tlmEnc => exact .inr ((tlmEnc_out run hout).2 ▸ outOk_telemetryFrame s)
    | valEnc =>
      cases present : s.params.hasValEnc with
      | false =>
        obtain rfl := next_unique run (exec_of_unit_absent (i := .valEnc) present)
        exact .inl hout
      | true =>
        cases hfmt : vidFormat s with
        | none =>
          obtain rfl := next_unique run (exec_valEnc_of_unregistered present hfmt)
          cases hout
        | some f =>
          cases fits : valueFits f s.ops.valIn with
          | false =>
            obtain rfl := next_unique run (exec_valEnc_of_outOfRange present hfmt fits)
            cases hout
          | true =>
            obtain rfl := next_unique run (exec_valEnc_of_fits present hfmt fits)
            exact .inr (Option.some.inj hout ▸ outOk_payloadFrame f s.ops.valIn)
    | _ => simp [ownedGroups] at own
  · have kept : t.res.out = s.res.out := (exec_answer run).sameGroup own
    exact .inl (kept ▸ hout)

/-- A message RR_DEC leaves has the class of its code (10_state.md R38). -/
theorem rrDec_rrOk {s t : State} {g : RrGroup} (run : exec .rrDec s = .next t) (hrr : t.res.rr = some g) : RrOk g := by
  by_cases length : s.ops.inLen.toNat = rrLen s.params
  · obtain rfl := next_unique run (exec_rrDec_of_length length)
    obtain rfl := Option.some.inj hrr
    rfl
  · obtain rfl := next_unique run (exec_rrDec_of_wrong_length length)
    cases hrr

/-- A valid group `RR` after a command is a message whose class is that of its code, or was there before. -/
theorem exec_rr {i : Instr} (command : i.format = .cmd8) {s t : State} {g : RrGroup} (run : exec i s = .next t)
    (hrr : t.res.rr = some g) : s.res.rr = some g ∨ RrOk g := by
  by_cases own : .rr ∈ ownedGroups i
  · cases i with
    | rrDec => exact .inr (rrDec_rrOk run hrr)
    | noOp | read | write | store | reserved => cases command
    | _ => simp [ownedGroups] at own
  · have kept : t.res.rr = s.res.rr := (exec_answer run).sameGroup own
    exact .inl (kept ▸ hrr)

/-- A valid group `VAL` after a command is a value in the range of its tag, or was there before. -/
theorem exec_val {i : Instr} (command : i.format = .cmd8) {s t : State} {g : ValGroup} (run : exec i s = .next t)
    (hval : t.res.val = some g) : s.res.val = some g ∨ ValOk g := by
  by_cases own : .val ∈ ownedGroups i
  · cases i with
    | valDec =>
      obtain ⟨f, rfl⟩ := valDec_val run hval
      exact .inr (valOk_payloadValue f s)
    | signedShort16 | unsignedShort16 | float32 | bool8 => cases command
    | _ => simp [ownedGroups] at own
  · have kept : t.res.val = s.res.val := (exec_answer run).sameGroup own
    exact .inl (kept ▸ hval)

/-- The vector a VEC2_NEW with its unit leaves: each operand clamped (46_companion_vec2.md R181). -/
theorem vec2New_vec {s t : State} {g : VecGroup} (present : s.params.hasVec2 = true)
    (run : exec .vec2New s = .next t) (hvec : t.res.vec = some g) :
    g = ⟨clamp (Config.nanComponentX s.draw) s.ops.vxIn, clamp (Config.nanComponentY s.draw) s.ops.vyIn⟩ := by
  obtain rfl := next_unique run (exec_vec2New_of_present present)
  exact (Option.some.inj hvec).symm

/-- A valid group `VEC` after a command is a clamped vector, or was there before. -/
theorem exec_vec {i : Instr} {s t : State} {g : VecGroup} (run : exec i s = .next t) (hvec : t.res.vec = some g) :
    s.res.vec = some g ∨ VecOk g := by
  by_cases own : .vec ∈ ownedGroups i
  · obtain rfl := vec_mem_ownedGroups own
    cases present : s.params.hasVec2 with
    | false =>
      obtain rfl := next_unique run (exec_of_unit_absent (i := .vec2New) present)
      exact .inl hvec
    | true =>
      obtain rfl := vec2New_vec present run hvec
      exact .inr ⟨inClampRange_clamp _ _, inClampRange_clamp _ _⟩
  · exact .inl ((vec_eq_of_sameGroup ((exec_answer run).sameGroup own)) ▸ hvec)

/-- A clamped component is a NaN only for an operand that is one, and otherwise a number in [-1.0, 1.0]. -/
theorem clamp_component (nanDraw v : Word) :
    (isNaN (clamp nanDraw v) = true → isNaN v = true)
      ∧ (isNaN (clamp nanDraw v) = false →
        -(2 ^ 149 : Int) ≤ floatNumber (clamp nanDraw v) ∧ floatNumber (clamp nanDraw v) ≤ 2 ^ 149) := by
  constructor
  · intro nan
    by_contra number
    exact absurd (nan.symm.trans (isNaN_clamp (Bool.eq_false_iff.mpr number))) (by decide)
  · intro number
    have range := inClampRange_clamp nanDraw v
    rw [inClampRange, number, Bool.false_or, decide_eq_true_eq, floatNumber_one, floatNumber_minusOne] at range
    exact range

/-! ### The timer (60_exceptions.md R211, R213, R215, R217) -/

/-- A check of a due timer of period 0 (60_exceptions.md R211). -/
theorem checkTimer_of_zeroPeriod {tm : Timer} {s : State} (zero : tm.period = 0) (due : tm.deadline ≤ s.now) :
    checkTimer tm s = .fault .zeroPeriod := by
  have hd : isDue tm (now s) = true := (isDue_iff tm s.now).mpr due
  rw [checkTimer, if_pos hd, if_pos zero]

/-- A check of a timer that answers a next state is early, or due with a next deadline (60_exceptions.md R213). -/
theorem checkTimer_next {tm : Timer} {s t : State} (run : checkTimer tm s = .next t) :
    (s.now < tm.deadline ∧ t = notYet s)
      ∨ (tm.period ≠ 0 ∧ tm.deadline ≤ s.now ∧ nextDeadline tm s.now < 2 ^ 64 ∧ t = fire tm s) := by
  by_cases due : tm.deadline ≤ s.now
  · by_cases zero : tm.period = 0
    · rw [checkTimer_of_zeroPeriod zero due] at run
      cases run
    · obtain fits | overflow := Nat.lt_or_ge (nextDeadline tm s.now) (2 ^ 64)
      · exact .inr ⟨zero, due, fits, next_unique run (checkTimer_of_due zero due fits)⟩
      · rw [checkTimer_of_overflow zero due overflow] at run
        cases run
  · have early := BitVec.not_le.mp due
    exact .inl ⟨early, next_unique run (checkTimer_of_early early)⟩

/-- A check of a timer stops where it is due with no next deadline, or with a period of 0 (60_exceptions.md R213). -/
theorem checkTimer_fault {tm : Timer} {s : State} {r : Fault} (stuck : checkTimer tm s = .fault r) :
    (tm.period ≠ 0 ∧ tm.deadline ≤ s.now ∧ 2 ^ 64 ≤ nextDeadline tm s.now ∧ r = .deadlineOverflow)
      ∨ (tm.period = 0 ∧ tm.deadline ≤ s.now ∧ r = .zeroPeriod) := by
  by_cases due : tm.deadline ≤ s.now
  · by_cases zero : tm.period = 0
    · rw [checkTimer_of_zeroPeriod zero due] at stuck
      exact .inr ⟨zero, due, (Host.Outcome.fault.inj stuck).symm⟩
    · obtain fits | overflow := Nat.lt_or_ge (nextDeadline tm s.now) (2 ^ 64)
      · rw [checkTimer_of_due zero due fits] at stuck
        cases stuck
      · rw [checkTimer_of_overflow zero due overflow] at stuck
        exact .inl ⟨zero, due, overflow, (Host.Outcome.fault.inj stuck).symm⟩
  · rw [checkTimer_of_early (BitVec.not_le.mp due)] at stuck
    cases stuck

/-- A realignment that answers a next state found a deadline that is a tick count (60_exceptions.md R217). -/
theorem tmrResetPresent_next {s t : State} {tm : Timer} (htimer : s.timer = some tm)
    (run : tmrResetPresent s = .next t) : realigned tm s.now < 2 ^ 64 ∧ t =
      finish 0 false { s with timer := some { tm with deadline := BitVec.ofNat 64 (realigned tm s.now) } } := by
  obtain fits | overflow := Nat.lt_or_ge (realigned tm s.now) (2 ^ 64)
  · exact ⟨fits, next_unique run (tmrResetPresent_of_fits htimer fits)⟩
  · rw [tmrResetPresent_of_overflow htimer overflow] at run
    cases run

/-- A timer and its answers as before, and no catch-up shown. -/
theorem TimerOk.of_quiet {s t : State} (h : TimerOk s) (timer : t.timer = s.timer) (answer : t.res.tmr = s.res.tmr)
    (quiet : statusCatchup t.status = false) : TimerOk t where
  period := timer ▸ h.period
  answered := by rw [timer, answer]; exact h.answered
  quiet := answer ▸ h.quiet
  catchup shown := absurd (shown.symm.trans quiet) (by decide)

/-- An error of a timer command changes `STATUS` alone. -/
theorem TimerOk.raised {s : State} (h : TimerOk s) (e : CommandError) : TimerOk (raised e [] s) :=
  h.of_quiet rfl rfl (statusCatchup_statusDone _ _)

/-- A new deadline for a timer of the same period, or a new timer. -/
theorem TimerOk.of_timer {s : State} (h : TimerOk s) {tm : Timer} (period : tm.period ≠ 0) :
    TimerOk (finish 0 false { s with timer := some tm }) where
  period t ht := Option.some.inj ht ▸ period
  answered none := by cases none
  quiet := h.quiet
  catchup shown := absurd (shown.symm.trans (statusCatchup_statusDone 0 false)) (by decide)

theorem timerOk_notYet {s : State} (h : TimerOk s) {tm : Timer} (htimer : s.timer = some tm) : TimerOk (notYet s) where
  period := h.period
  answered noTimer := absurd (htimer.symm.trans noTimer) (by simp)
  quiet g hg _ := by
    obtain rfl := Option.some.inj hg
    rfl
  catchup shown := absurd (shown.symm.trans (statusCatchup_statusDone 0 false)) (by decide)

theorem timerOk_fire {s : State} {tm : Timer} (period : tm.period ≠ 0) : TimerOk (fire tm s) where
  period t ht := by
    obtain rfl := Option.some.inj ht
    exact period
  answered noTimer := by cases noTimer
  quiet g hg notFired := by
    obtain rfl := Option.some.inj hg
    cases notFired
  catchup shown := by
    have missed : 0 < missedPeriods tm s.now :=
      of_decide_eq_true ((statusCatchup_statusDone 0 _).symm.trans shown)
    refine ⟨_, rfl, rfl, fun zero => ?_⟩
    have value := congrArg BitVec.toNat zero
    rw [BitVec.toNat_ofNat, now, Nat.mod_eq_of_lt (missedPeriods_lt tm s.now)] at value
    exact absurd value missed.ne'

theorem timerOk_tmrInit {s t : State} (h : TimerOk s) (present : s.params.hasTimer = true)
    (run : exec .tmrInit s = .next t) : TimerOk t := by
  by_cases zero : s.ops.periodIn = 0
  · obtain rfl := next_unique run (exec_tmrInit_of_zero present zero)
    exact h.raised _
  · obtain rfl := next_unique run (exec_tmrInit_of_nonzero present zero)
    exact h.of_timer zero

theorem timerOk_tmrCheck {s t : State} (h : TimerOk s) (present : s.params.hasTimer = true)
    (run : exec .tmrCheck s = .next t) : TimerOk t := by
  cases htimer : s.timer with
  | none =>
    obtain rfl := next_unique run (exec_tmrCheck_of_none present htimer)
    exact h.raised _
  | some tm =>
    rw [exec_tmrCheck_of_some present htimer] at run
    obtain ⟨_, rfl⟩ | ⟨period, _, _, rfl⟩ := checkTimer_next run
    · exact timerOk_notYet h htimer
    · exact timerOk_fire period

theorem timerOk_tmrReset {s t : State} (h : TimerOk s) (present : s.params.hasTimer = true)
    (run : exec .tmrReset s = .next t) : TimerOk t := by
  rw [exec_tmrReset_of_present present] at run
  cases htimer : s.timer with
  | none =>
    obtain rfl := next_unique run (tmrResetPresent_of_none htimer)
    exact h.raised _
  | some tm =>
    obtain ⟨_, rfl⟩ := tmrResetPresent_next htimer run
    exact h.of_timer (h.period tm htimer)

theorem timerOk_exec {i : Instr} {s t : State} (h : TimerOk s) (run : exec i s = .next t) : TimerOk t := by
  by_cases present : unitPresent s.params i = true
  · by_cases hi : i ∈ [.tmrInit, .tmrCheck, .tmrReset]
    · simp only [List.mem_cons, List.not_mem_nil, or_false] at hi
      obtain rfl | rfl | rfl := hi
      · exact timerOk_tmrInit h present run
      · exact timerOk_tmrCheck h present run
      · exact timerOk_tmrReset h present run
    · have answer := exec_answer run
      have notCheck : i ≠ .tmrCheck := by
        rintro rfl
        exact hi (by decide)
      exact h.of_quiet (answer.timer_eq hi) (tmr_eq_of_sameGroup (answer.sameGroup (mt tmr_mem_ownedGroups notCheck)))
        (answer.statusCatchup_eq_false notCheck)
  · obtain rfl := next_unique run (exec_of_unit_absent (Bool.eq_false_iff.mpr present))
    exact h.raised _

/-! ### The invariant -/

/-- Every command keeps the invariant. -/
theorem inv_exec {i : Instr} (command : i.format = .cmd8) {s t : State} (h : Inv s) (run : exec i s = .next t) :
    Inv t where
  status := (exec_answer run).statusOk
  out g hg := (exec_out run hg).elim (h.out g) id
  rr g hg := (exec_rr command run hg).elim (h.rr g) id
  val g hg := (exec_val command run hg).elim (h.val g) id
  vec g hg := (exec_vec run hg).elim (h.vec g) id
  timer := timerOk_exec h.timer run
  units := unitsOk_exec h.units run
  fresh := (exec_answer run).freshOk

/-- An illegal command writes no group and no timer. -/
theorem inv_illegal {s : State} (h : Inv s) : Inv (raised .illegalCommand [] s) where
  status := statusOk_statusDone (by decide) (by simp)
  out := h.out
  rr := h.rr
  val := h.val
  vec := h.vec
  timer := h.timer.raised _
  units := ⟨h.units.timer, h.units.vec⟩
  fresh notDone := absurd ((statusDoneBit_statusDone _ _).symm.trans notDone) (by decide)

/-- A state with nothing written keeps the invariant in every build (10_state.md R49). -/
theorem inv_of_reset {s : State} (status : s.status = 0) (res : s.res = .reset) (timer : s.timer = none) : Inv s where
  status := by
    rw [status]
    exact ⟨rfl, rfl, by decide, by decide⟩
  out g hg := by rw [res] at hg; cases hg
  rr g hg := by rw [res] at hg; cases hg
  val g hg := by rw [res] at hg; cases hg
  vec g hg := by rw [res] at hg; cases hg
  timer :=
    { period := fun t ht => by rw [timer] at ht; cases ht
      answered := fun _ => by rw [res]; rfl
      quiet := fun g hg => by rw [res] at hg; cases hg
      catchup := fun shown => by rw [status] at shown; cases shown }
  units := ⟨fun _ => ⟨timer, by rw [res]; rfl⟩, fun _ => by rw [res]; rfl⟩
  fresh _ := ⟨status, res, timer⟩

/-- The invariant speaks of the build, `STATUS`, the groups and the timer only. -/
theorem Inv.congr {s t : State} (h : Inv s) (params : t.params = s.params) (status : t.status = s.status)
    (res : t.res = s.res) (timer : t.timer = s.timer) : Inv t := by
  obtain ⟨_, _, _, _, _, _, _, _, _, _⟩ := t
  subst params status res timer
  exact
    { h with
      timer := ⟨h.timer.period, h.timer.answered, h.timer.quiet, h.timer.catchup⟩
      units := ⟨h.units.timer, h.units.vec⟩ }

theorem inv_issue {code : Byte} {s t : State} (h : Inv s) (run : issue code s = .next t) : Inv t := by
  have placed : Inv { s with cmd := code } := h.congr rfl rfl rfl rfl
  obtain ⟨i, hcode, hexec⟩ | ⟨_, rfl⟩ := issue_next run
  · exact inv_exec (encode_of_decode_cmd8 hcode).1 placed hexec
  · exact inv_illegal placed

/-- Serving an access keeps the invariant. -/
theorem inv_serve {a : HostAccess} {s t : State} (h : Inv s) (run : serve a s = .next t) : Inv t := by
  cases a with
  | write offset data =>
    obtain ⟨_, rfl | ⟨r, v, _, _, rfl⟩ | ⟨code, hissue⟩⟩ := serveWrite_next run
    · exact h
    · exact h.congr rfl rfl rfl rfl
    · exact inv_issue h hissue
  | read offset size =>
    obtain ⟨d, rfl⟩ := serveRead_next run
    exact h.congr rfl rfl rfl rfl
  | reset =>
    obtain rfl := Host.Outcome.next.inj run
    exact inv_of_reset rfl rfl rfl
  | time now =>
    obtain rfl := Host.Outcome.next.inj run
    exact h.congr rfl rfl rfl rfl

end Sys2Proof.Machine

open Sys2Proof Sys2Proof.Machine

/-- Settles O60: the access a step serves keeps the invariant, a command group by group. -/
theorem everyStepKeepsTheInvariant : Obligations.EveryStepKeepsTheInvariant := by
  unfold Obligations.EveryStepKeepsTheInvariant
  intro s t hinv hstep
  unfold step at hstep
  split at hstep
  next =>
    obtain rfl := Host.Outcome.next.inj hstep
    exact hinv
  next a rest _ =>
    have taken : Inv { s with inbox := rest } := hinv.congr rfl rfl rfl rfl
    exact inv_serve taken hstep

/-- Settles O59: at reset nothing is written, whatever the build. -/
theorem invariantHoldsAtReset : Obligations.InvariantHoldsAtReset := by
  unfold Obligations.InvariantHoldsAtReset
  intro p
  exact inv_of_reset rfl rfl rfl

/-- Settles O30: no access writes the parameters, and no command does. -/
theorem noStepChangesTheBuild : Obligations.NoStepChangesTheBuild := by
  unfold Obligations.NoStepChangesTheBuild
  intro s t hstep
  cases step_stepped hstep with
  | ran rest code i _ run => exact (exec_answer run).hostSideKept.params
  | idle | served | wrote | illegal | reset | time => rfl

/-- Settles O58: the time moves by a time input only, and that takes no earlier count. -/
theorem timeNeverGoesBack : Obligations.TimeNeverGoesBack := by
  unfold Obligations.TimeNeverGoesBack
  intro s t hstep
  cases step_stepped hstep with
  | ran rest code i _ run => exact BitVec.le_of_eq (exec_answer run).hostSideKept.now.symm
  | time rest now =>
    rw [advanceTime_now]
    split
    next later => exact later
    next => exact BitVec.le_refl _
  | idle | served | wrote | illegal | reset => exact BitVec.le_refl _

/-- Settles O40: no answer of a command differs there. -/
theorem commandsWriteNoOperand : Obligations.CommandsWriteNoOperand := by
  unfold Obligations.CommandsWriteNoOperand
  intro i s t run
  exact (exec_answer run).hostSideKept

/-- Settles O41: an error invalidates its own groups only, a success fills its own only. -/
theorem commandsTouchOnlyTheirGroups : Obligations.CommandsTouchOnlyTheirGroups := by
  unfold Obligations.CommandsTouchOnlyTheirGroups
  intro i s t g run hg
  exact (exec_answer run).sameGroup hg

/-- Settles O33: a component left is the clamp of its operand. -/
theorem vec2ComponentsStayInTheClampRange : Obligations.Vec2ComponentsStayInTheClampRange := by
  unfold Obligations.Vec2ComponentsStayInTheClampRange
  intro s t g run hok hvec
  have present : s.params.hasVec2 = true := by
    by_contra absent
    obtain rfl := next_unique run (exec_of_unit_absent (i := .vec2New) (Bool.eq_false_iff.mpr absent))
    exact statusErr_raised_ne_zero _ _ s hok
  obtain rfl := vec2New_vec present run hvec
  simp only [List.forall_mem_cons, List.not_mem_nil, false_imp_iff, implies_true, and_true]
  exact ⟨clamp_component _ _, clamp_component _ _⟩

end

section
/-! PROOF. What a command publishes is determined by the build, the operands and the time (20_memory.md R68;
60_exceptions.md R201, R209); every command completes but for an undefined deadline (70_reset_and_hazards.md R248). -/

namespace Sys2Proof.Machine

/-! ### What a codec, registry or vector command publishes -/

/-- What such a command publishes: an error code and what it writes over the result groups. -/
structure Publication where
  code : BitVec 4
  write : Results → Results

/-- The state a publication leaves. -/
def Publication.publish (p : Publication) (s : State) : State :=
  finish p.code false { s with res := p.write s.res }

/-- A publication of a command that owns the given groups: written twice it is as written once, and it leaves nothing of
what stood in the groups. -/
structure Publication.Owns (p : Publication) (groups : List Group) : Prop where
  twice : ∀ r, p.write (p.write r) = p.write r
  replaces : ∀ (s t : State), ∀ g ∈ groups, sameGroup (p.publish s) (p.publish t) g

theorem Publication.publish_publish {p : Publication} (twice : ∀ r, p.write (p.write r) = p.write r) (s : State) :
    p.publish (p.publish s) = { p.publish s with draw := (p.publish s).draw + 1 } := by
  have res : p.write (p.publish s).res = (p.publish s).res := twice s.res
  rw [publish, res]
  rfl

/-- The state `t` with what a command reads in `s`: the build, the operands and the time. -/
def withInputsOf (s t : State) : State := { t with params := s.params, ops := s.ops, now := s.now }

theorem withInputsOf_eq {s t : State} (params : s.params = t.params) (ops : s.ops = t.ops) (now : s.now = t.now) :
    withInputsOf s t = t := by
  rw [withInputsOf, params, ops, now]

/-- Some publication that owns the groups is what the meaning publishes from every state with the inputs of `s`. -/
def Publishes (m : State → Result) (s : State) (groups : List Group) : Prop :=
  ∃ p : Publication, p.Owns groups ∧ ∀ t, m (withInputsOf s t) = .next (p.publish (withInputsOf s t))

theorem invalidate_of_invalid {r : Results} {g : Group} (h : r.valid g = false) : r.invalidate g = r := by
  obtain ⟨_, _, _, _, _, _, _, _⟩ := r
  cases g <;> simp_all [Results.valid, Results.invalidate]

theorem invalidateAll_of_invalid {r : Results} {gs : List Group} (h : ∀ g ∈ gs, r.valid g = false) :
    r.invalidateAll gs = r := by
  induction gs with
  | nil => rfl
  | cons g gs ih =>
    rw [List.forall_mem_cons] at h
    rw [invalidateAll_cons, invalidate_of_invalid h.1, ih h.2]

theorem sameGroup_of_invalid {s t : State} {g : Group} (hs : s.res.valid g = false) (ht : t.res.valid g = false) :
    sameGroup s t g := by
  cases g <;> simp_all [Results.valid, sameGroup]

/-- An error publishes its code and nothing in the command's groups (60_exceptions.md R196). -/
theorem Publishes.of_error {m : State → Result} {s : State} {groups : List Group} (e : CommandError)
    (h : ∀ t, m (withInputsOf s t) = .next (raised e groups (withInputsOf s t))) : Publishes m s groups := by
  refine ⟨⟨e.code, fun r => r.invalidateAll groups⟩, ⟨fun r => ?twice, fun s t g hg => ?replaces⟩, h⟩
  case twice => exact invalidateAll_of_invalid fun g hg => by rw [valid_invalidateAll, if_pos hg]
  case replaces => exact sameGroup_of_invalid (valid_raised_of_mem e s hg) (valid_raised_of_mem e t hg)

/-- A success publishes what it writes to the command's groups. -/
theorem Publishes.of_success {m : State → Result} {s : State} {groups : List Group} (write : Results → Results)
    (twice : ∀ r, write (write r) = write r)
    (replaces : ∀ s t : State, ∀ g ∈ groups, sameGroup { s with res := write s.res } { t with res := write t.res } g)
    (h : ∀ t, m (withInputsOf s t) = .next (finish 0 false { withInputsOf s t with res := write t.res })) :
    Publishes m s groups := by
  refine ⟨⟨0, write⟩, ⟨twice, fun s t g hg => ?_⟩, h⟩
  have same := replaces s t g hg
  cases g <;> exact same

theorem publishes_deliver (op : BitVec 7) (flag : Bool) (cls : BitVec 3) (s : State) :
    Publishes (deliver op flag cls) s [.rr] := by
  by_cases length : s.ops.inLen.toNat = rrLen s.params
  · exact .of_success (fun r => { r with rr := some (message op flag cls s) }) (fun _ => rfl) (by simp [sameGroup])
      fun t => deliver_of_length (s := withInputsOf s t) length op flag cls
  · exact .of_error _ fun t => deliver_of_wrong_length (s := withInputsOf s t) length op flag cls

theorem publishes_exec_instr (f : WireFormat) (s : State) : Publishes (exec f.instr) s [.val] := by
  by_cases length : s.ops.inLen.toNat = 4
  · exact .of_success (fun r => { r with val := some ⟨f.code, payloadValue f s⟩ }) (fun _ => rfl) (by simp [sameGroup])
      fun t => (exec_instr f _).trans (interpret_of_length (s := withInputsOf s t) length _ _)
  · exact .of_error _ fun t => (exec_instr f _).trans (interpret_of_wrong_length (s := withInputsOf s t) length _ _)

/-- The clamp of a number does not depend on the draw (46_companion_vec2.md R183). -/
theorem clamp_congr {v : Word} (number : isNaN v = false) (a b : Word) : clamp a v = clamp b v := by
  rw [clamp_of_not_nan (Bool.eq_false_iff.mp number), clamp_of_not_nan (Bool.eq_false_iff.mp number)]

/-- A codec, registry or vector command of the build, without a NaN operand for VEC2_NEW, publishes what the build, the
operands and the time determine (20_memory.md R68; 60_exceptions.md R209). -/
theorem publishes_exec {i : Instr} {s : State} (hi : i ∉ [.tmrInit, .tmrCheck, .tmrReset])
    (numbers : i = .vec2New → isNaN s.ops.vxIn = false ∧ isNaN s.ops.vyIn = false)
    (present : unitPresent s.params i = true) : Publishes (exec i) s (ownedGroups i) := by
  cases i with
  | tmrInit | tmrCheck | tmrReset => exact absurd (by decide) hi
  | rrEnc =>
    obtain fits | wide := Nat.lt_or_ge s.ops.op.toNat 128
    · exact .of_success (fun r => { r with out := some (rrFrame s) }) (fun _ => rfl) (by simp [ownedGroups, sameGroup])
        fun t => exec_rrEnc_of_fits (s := withInputsOf s t) fits
    · exact .of_error _ fun t => exec_rrEnc_of_tooWide (s := withInputsOf s t) wide
  | rrBuild =>
    obtain fits | wide := Nat.lt_or_ge s.ops.op.toNat 128
    · exact .of_success (fun r => { r with addr := some (frameAddress s), out := some (rrFrame s) }) (fun _ => rfl)
        (by simp [ownedGroups, sameGroup]) fun t => exec_rrBuild_of_fits (s := withInputsOf s t) fits
    · exact .of_error _ fun t => exec_rrBuild_of_tooWide (s := withInputsOf s t) wide
  | tlmEnc =>
    by_cases fits : ∀ k : Fin 4, fitsSigned16 (s.ops.rpmIn.get k) = true
    · exact .of_success (fun r => { r with out := some (telemetryFrame s) }) (fun _ => rfl)
        (by simp [ownedGroups, sameGroup]) fun t => exec_tlmEnc_of_fits (s := withInputsOf s t) fits
    · obtain ⟨k, outOfRange⟩ := not_forall.mp fits
      exact .of_error _ fun t =>
        exec_tlmEnc_of_outOfRange (s := withInputsOf s t) (Bool.eq_false_iff.mpr outOfRange)
  | tlmDec =>
    by_cases length : s.ops.inLen.toNat = 8
    · exact .of_success (fun r => { r with tlm := some (telemetryMessage s) }) (fun _ => rfl)
        (by simp [ownedGroups, sameGroup]) fun t => exec_tlmDec_of_length (s := withInputsOf s t) length
    · exact .of_error _ fun t => exec_tlmDec_of_wrong_length (s := withInputsOf s t) length
  | fmtLookup =>
    cases hfmt : vidFormat s with
    | none => exact .of_error _ fun t => exec_fmtLookup_of_unregistered (s := withInputsOf s t) hfmt
    | some f =>
      exact .of_success (fun r => { r with fmt := some f.code }) (fun _ => rfl) (by simp [ownedGroups, sameGroup])
        fun t => exec_fmtLookup_of_registered (s := withInputsOf s t) hfmt
  | valDec =>
    by_cases length : s.ops.inLen.toNat = 4
    · cases hfmt : vidFormat s with
      | none => exact .of_error _ fun t => exec_valDec_of_unregistered (s := withInputsOf s t) length hfmt
      | some f =>
        exact .of_success (fun r => { r with val := some ⟨f.code, payloadValue f s⟩ }) (fun _ => rfl)
          (by simp [ownedGroups, sameGroup]) fun t => exec_valDec_of_registered (s := withInputsOf s t) length hfmt
    · exact .of_error _ fun t => exec_valDec_of_wrong_length (s := withInputsOf s t) length
  | valEnc =>
    cases hfmt : vidFormat s with
    | none => exact .of_error _ fun t => exec_valEnc_of_unregistered (s := withInputsOf s t) present hfmt
    | some f =>
      cases fits : valueFits f s.ops.valIn with
      | false => exact .of_error _ fun t => exec_valEnc_of_outOfRange (s := withInputsOf s t) present hfmt fits
      | true =>
        exact .of_success (fun r => { r with out := some (payloadFrame f s.ops.valIn) }) (fun _ => rfl)
          (by simp [ownedGroups, sameGroup]) fun t => exec_valEnc_of_fits (s := withInputsOf s t) present hfmt fits
  | vec2New =>
    obtain ⟨x, y⟩ := numbers rfl
    refine .of_success (fun r => { r with vec := some ⟨clamp 0 s.ops.vxIn, clamp 0 s.ops.vyIn⟩ }) (fun _ => rfl)
      (by simp [ownedGroups, sameGroup]) fun t => ?_
    rw [exec_vec2New_of_present (s := withInputsOf s t) present, clamp_congr x 0 (Config.nanComponentX t.draw),
      clamp_congr y 0 (Config.nanComponentY t.draw)]
    rfl
  | rrDec =>
    exact publishes_deliver (unpackOp (inByte s 0)) (unpackSuccess (inByte s 0)) (opclass (unpackOp (inByte s 0))) s
  | noOp flag => exact publishes_deliver 0 flag 0 s
  | read flag => exact publishes_deliver 1 flag 1 s
  | write flag => exact publishes_deliver 2 flag 2 s
  | store flag => exact publishes_deliver 3 flag 3 s
  | reserved flag code => exact publishes_deliver code flag 4 s
  | signedShort16 => exact publishes_exec_instr .signedShort16 s
  | unsignedShort16 => exact publishes_exec_instr .unsignedShort16 s
  | float32 => exact publishes_exec_instr .float32 s
  | bool8 => exact publishes_exec_instr .bool8 s

/-! ### What a command does is the same from any `STATUS` and `CMD` (60_exceptions.md R201, R206) -/

/-- The state with another `STATUS` and `CMD`. -/
def withStatusCmd (status code : Byte) (s : State) : State := { s with status := status, cmd := code }

theorem tmrInit_withStatusCmd {s t : State} (present : s.params.hasTimer = true) (run : exec .tmrInit s = .next t)
    (status code : Byte) : exec .tmrInit (withStatusCmd status code s) = .next { t with cmd := code } := by
  by_cases zero : s.ops.periodIn = 0
  · obtain rfl := next_unique run (exec_tmrInit_of_zero present zero)
    exact exec_tmrInit_of_zero (s := withStatusCmd status code s) present zero
  · obtain rfl := next_unique run (exec_tmrInit_of_nonzero present zero)
    exact exec_tmrInit_of_nonzero (s := withStatusCmd status code s) present zero

theorem tmrCheck_withStatusCmd {s t : State} (present : s.params.hasTimer = true) (run : exec .tmrCheck s = .next t)
    (status code : Byte) : exec .tmrCheck (withStatusCmd status code s) = .next { t with cmd := code } := by
  cases htimer : s.timer with
  | none =>
    obtain rfl := next_unique run (exec_tmrCheck_of_none present htimer)
    exact exec_tmrCheck_of_none (s := withStatusCmd status code s) present htimer
  | some tm =>
    rw [exec_tmrCheck_of_some present htimer] at run
    rw [exec_tmrCheck_of_some (s := withStatusCmd status code s) present htimer]
    obtain ⟨early, rfl⟩ | ⟨period, due, fits, rfl⟩ := checkTimer_next run
    · exact checkTimer_of_early early
    · exact checkTimer_of_due period due fits

theorem tmrReset_withStatusCmd {s t : State} (present : s.params.hasTimer = true) (run : exec .tmrReset s = .next t)
    (status code : Byte) : exec .tmrReset (withStatusCmd status code s) = .next { t with cmd := code } := by
  rw [exec_tmrReset_of_present present] at run
  rw [exec_tmrReset_of_present (s := withStatusCmd status code s) present]
  cases htimer : s.timer with
  | none =>
    obtain rfl := next_unique run (tmrResetPresent_of_none htimer)
    exact tmrResetPresent_of_none htimer
  | some tm =>
    obtain ⟨fits, rfl⟩ := tmrResetPresent_next htimer run
    exact tmrResetPresent_of_fits (s := withStatusCmd status code s) htimer fits

/-- What a command does is the same from any `STATUS` and `CMD`, and `CMD` is handed on. -/
theorem exec_withStatusCmd {i : Instr} {s t : State} (run : exec i s = .next t) (status code : Byte) :
    exec i (withStatusCmd status code s) = .next { t with cmd := code } := by
  by_cases present : unitPresent s.params i = true
  · by_cases codec : i ∉ [.tmrInit, .tmrCheck, .tmrReset] ∧ i ≠ .vec2New
    · obtain ⟨p, -, publishes⟩ := publishes_exec codec.1 (fun h => absurd h codec.2) present
      obtain rfl := next_unique run (publishes s)
      exact publishes (withStatusCmd status code s)
    · cases i with
      | tmrInit => exact tmrInit_withStatusCmd present run status code
      | tmrCheck => exact tmrCheck_withStatusCmd present run status code
      | tmrReset => exact tmrReset_withStatusCmd present run status code
      | vec2New =>
        obtain rfl := next_unique run (exec_vec2New_of_present present)
        exact exec_vec2New_of_present (s := withStatusCmd status code s) present
      | _ => exact absurd (by simp) codec
  · rw [Bool.not_eq_true] at present
    obtain rfl := next_unique run (exec_of_unit_absent present)
    exact exec_of_unit_absent (s := withStatusCmd status code s) present

/-! ### Completion (70_reset_and_hazards.md R238, R248) -/

/-- Every command but TMR_CHECK and TMR_RESET completes. -/
theorem exec_completes {i : Instr} (s : State) (hi : i ≠ .tmrCheck ∧ i ≠ .tmrReset) : ∃ t, exec i s = .next t := by
  by_cases present : unitPresent s.params i = true
  · by_cases codec : i ∉ [.tmrInit, .tmrCheck, .tmrReset] ∧ i ≠ .vec2New
    · obtain ⟨p, -, publishes⟩ := publishes_exec codec.1 (fun h => absurd h codec.2) present
      exact ⟨_, publishes s⟩
    · cases i with
      | tmrInit =>
        by_cases zero : s.ops.periodIn = 0
        · exact ⟨_, exec_tmrInit_of_zero present zero⟩
        · exact ⟨_, exec_tmrInit_of_nonzero present zero⟩
      | vec2New => exact ⟨_, exec_vec2New_of_present present⟩
      | tmrCheck => exact absurd rfl hi.1
      | tmrReset => exact absurd rfl hi.2
      | _ => exact absurd (by simp) codec
  · exact ⟨_, exec_of_unit_absent (Bool.eq_false_iff.mpr present)⟩

/-- TMR_CHECK of a timer completes where its period is not 0 and a period from now is a tick count. -/
theorem checkTimer_completes {tm : Timer} {s : State} (period : tm.period ≠ 0)
    (fits : s.now.toNat + tm.period.toNat < 2 ^ 64) : ∃ t, checkTimer tm s = .next t := by
  by_cases due : tm.deadline ≤ s.now
  · exact ⟨_, checkTimer_of_due period due (lt_of_le_of_lt (nextDeadline_bounds period due).2 fits)⟩
  · exact ⟨_, checkTimer_of_early (BitVec.not_le.mp due)⟩

/-- TMR_CHECK and TMR_RESET complete but for a timer of the build whose period or new deadline is none the spec
defines (60_exceptions.md R213, R217). -/
theorem exec_completes_of_defined {i : Instr} {s : State} (hi : i = .tmrCheck ∨ i = .tmrReset)
    (defined : s.params.hasTimer = true → ∀ tm, s.timer = some tm →
      tm.period ≠ 0 ∧ s.now.toNat + tm.period.toNat < 2 ^ 64) : ∃ t, exec i s = .next t := by
  cases present : s.params.hasTimer with
  | false =>
    refine ⟨_, exec_of_unit_absent (unitPresent_of_timer present ?_)⟩
    obtain rfl | rfl := hi <;> decide
  | true =>
    cases htimer : s.timer with
    | none =>
      obtain rfl | rfl := hi
      · exact ⟨_, exec_tmrCheck_of_none present htimer⟩
      · exact ⟨_, exec_tmrReset_of_no_timer htimer⟩
    | some tm =>
      obtain ⟨period, fits⟩ := defined present tm htimer
      obtain rfl | rfl := hi
      · rw [exec_tmrCheck_of_some present htimer]
        exact checkTimer_completes period fits
      · exact ⟨_, (exec_tmrReset_of_present present).trans (tmrResetPresent_of_fits htimer fits)⟩

end Sys2Proof.Machine

open Sys2Proof Sys2Proof.Machine

/-- Settles O45: codecs publish what their inputs determine, and the timer commands branch on the timer and the time. -/
theorem statusInfluencesNoCommand : Obligations.StatusInfluencesNoCommand := by
  unfold Obligations.StatusInfluencesNoCommand
  intro i s t status code run
  exact exec_withStatusCmd run status code

/-- Settles O46: a publication keeps the inputs, and written twice it is as written once. -/
theorem codecCommandsAreIdempotent : Obligations.CodecCommandsAreIdempotent := by
  unfold Obligations.CodecCommandsAreIdempotent
  intro i s t hi numbers run
  by_cases present : unitPresent s.params i = true
  · obtain ⟨p, owns, publishes⟩ := publishes_exec hi numbers present
    obtain rfl := next_unique run (publishes s)
    exact (publishes (p.publish s)).trans (congrArg Host.Outcome.next (Publication.publish_publish owns.twice s))
  · rw [Bool.not_eq_true] at present
    obtain rfl := next_unique run (exec_of_unit_absent present)
    exact exec_of_unit_absent (s := raised .illegalCommand [] s) present

/-- Settles O47: both states publish the same, which replaces what stood in the groups of the command. -/
theorem codecResultsDependOnOperandsOnly : Obligations.CodecResultsDependOnOperandsOnly := by
  unfold Obligations.CodecResultsDependOnOperandsOnly
  intro i s t s' t' hi numbers hparams hops hnow run run'
  by_cases present : unitPresent s.params i = true
  · obtain ⟨p, owns, publishes⟩ := publishes_exec hi numbers present
    have publishes' := publishes t
    rw [withInputsOf_eq hparams hops hnow] at publishes'
    obtain rfl := next_unique run (publishes s)
    obtain rfl := next_unique run' publishes'
    exact ⟨rfl, fun _ => owns.replaces s t⟩
  · rw [Bool.not_eq_true] at present
    obtain rfl := next_unique run (exec_of_unit_absent present)
    obtain rfl := next_unique run' (exec_of_unit_absent (hparams ▸ present))
    exact ⟨rfl, fun h => absurd (h.symm.trans present) (by decide)⟩

/-- Settles O44: only a timer whose new deadline or period is none the spec defines keeps a command from completing. -/
theorem everyCommandCompletes : Obligations.EveryCommandCompletes := by
  unfold Obligations.EveryCommandCompletes
  intro i s
  by_cases stuck : (i = .tmrCheck ∨ i = .tmrReset) ∧ s.params.hasTimer = true ∧ ∃ tm, s.timer = some tm
      ∧ (tm.period = 0 ∨ 2 ^ 64 ≤ s.now.toNat + tm.period.toNat)
  · exact .inr stuck
  · have completes : ∃ t, exec i s = .next t := by
      by_cases hi : i = .tmrCheck ∨ i = .tmrReset
      · refine exec_completes_of_defined hi fun present tm htimer =>
          ⟨fun zero => ?_, Nat.lt_of_not_le fun overflow => ?_⟩
        · exact stuck ⟨hi, present, tm, htimer, .inl zero⟩
        · exact stuck ⟨hi, present, tm, htimer, .inr overflow⟩
      · exact exec_completes s (not_or.mp hi)
    obtain ⟨t, run⟩ := completes
    have answer := exec_answer run
    exact .inl ⟨t, run, answer.statusOk.idle, answer.statusDoneBit⟩

/-- Settles O38: a timer is realigned to a tick count or not; a check of it is early, or due with a period of 0, with a
next deadline, or with none. -/
theorem deadlineBeyondSixtyFourBitsIsStuck : Obligations.DeadlineBeyondSixtyFourBitsIsStuck := by
  unfold Obligations.DeadlineBeyondSixtyFourBitsIsStuck
  intro s tm present htimer
  rw [exec_tmrReset_of_present present, exec_tmrCheck_of_some present htimer]
  refine ⟨⟨fun stuck => ?_, tmrResetPresent_of_overflow htimer⟩,
    ⟨fun stuck => ?_, fun ⟨period, due, overflow⟩ => checkTimer_of_overflow period due overflow⟩,
    ⟨fun stuck => ?_, fun ⟨zero, due⟩ => checkTimer_of_zeroPeriod zero due⟩⟩
  · by_contra fits
    rw [tmrResetPresent_of_fits htimer (Nat.lt_of_not_le fits)] at stuck
    cases stuck
  · obtain ⟨period, due, overflow, _⟩ | ⟨_, _, h⟩ := checkTimer_fault stuck
    · exact ⟨period, due, overflow⟩
    · cases h
  · obtain ⟨_, _, _, h⟩ | ⟨zero, due, _⟩ := checkTimer_fault stuck
    · cases h
    · exact ⟨zero, due⟩

/-- Settles O36: the next deadline is the first one of the timer's phase that is later than the time read, and any time
before it is early. -/
theorem tmrCheckNeverRefiresOrDrifts : Obligations.TmrCheckNeverRefiresOrDrifts := by
  unfold Obligations.TmrCheckNeverRefiresOrDrifts
  intro s t tm g present htimer _ run hg
  rw [exec_tmrCheck_of_some present htimer] at run
  obtain ⟨_, rfl⟩ | ⟨period, due, fits, rfl⟩ := checkTimer_next run
  · obtain rfl := Option.some.inj hg
    exact ⟨tm, htimer, rfl, rfl, fun fired => by cases fired⟩
  · obtain rfl := Option.some.inj hg
    have deadline : (BitVec.ofNat 64 (nextDeadline tm s.now)).toNat = nextDeadline tm s.now :=
      (BitVec.toNat_ofNat _ _).trans (Nat.mod_eq_of_lt fits)
    have missed : (BitVec.ofNat 64 (missedPeriods tm s.now)).toNat = missedPeriods tm s.now :=
      (BitVec.toNat_ofNat _ _).trans (Nat.mod_eq_of_lt (missedPeriods_lt tm s.now))
    obtain ⟨later, within⟩ := nextDeadline_bounds period due
    refine ⟨{ tm with deadline := BitVec.ofNat 64 (nextDeadline tm s.now) }, rfl, rfl, ?phase,
      fun _ => ⟨?later, ?within, ?moved, fun time early => ?quiet⟩⟩
    case phase =>
      rw [deadline, nextDeadline, Nat.add_mul_mod_self_right]
    case later =>
      rw [BitVec.lt_def, deadline]
      exact later
    case within =>
      rw [deadline]
      omega
    case moved =>
      rw [deadline]
      exact congrArg (fun m => tm.deadline.toNat + (m + 1) * tm.period.toNat) missed.symm
    case quiet =>
      exact ⟨_, (exec_tmrCheck_of_some (s := { fire tm s with now := time }) present rfl).trans
        (checkTimer_of_early early), rfl, rfl⟩

end

section
/-! PROOF. The host's accesses: what an access meets in the register map, and what reading and writing one whole
register does (20_memory.md R60, R63, R66, R67; 70_reset_and_hazards.md R230, R239). -/

namespace Sys2Proof.Machine

/-! ### What an access meets (20_memory.md R66, R67) -/

/-- An access that shares a byte with a register and is not exactly that register meets no whole register. -/
theorem target_partial {p : Params} {r : Reg} {offset size : Nat} (he : r.existsIn p = true)
    (ho : r.overlaps offset size = true) (hne : ¬ (r.offset = offset ∧ r.size = size)) :
    target p offset size = .notWhole := by
  have met : r ∈ Reg.all.filter fun q => q.existsIn p && q.overlaps offset size := by
    simp [List.mem_filter, r.mem_all, he, ho]
  unfold target
  split
  next empty => simp [empty] at met
  next q one =>
    obtain rfl : r = q := by simpa [one] using met
    exact if_neg hne
  next => rfl

/-- A byte at which no register of the build stands is reserved. -/
theorem target_reserved {p : Params} {offset : Nat}
    (h : ∀ r : Reg, r.existsIn p = true → r.overlaps offset 1 = false) : target p offset 1 = .reservedBytes := by
  have none_met : (Reg.all.filter fun q => q.existsIn p && q.overlaps offset 1) = [] := by
    rw [List.filter_eq_nil_iff]
    intro r _ met
    obtain ⟨exists_, overlaps⟩ := Bool.and_eq_true_iff.mp met
    exact absurd (overlaps.symm.trans (h r exists_)) (by decide)
  simp [target, none_met]

/-! ### Accesses that stop -/

theorem serveRead_beyond {offset size : Nat} (h : Config.spaceSize < offset + size) (s : State) :
    serveRead offset size s = .fault .outsideRegisterSpace :=
  if_pos h

theorem serveWrite_beyond {offset : Nat} {bytes : List Byte} (h : Config.spaceSize < offset + bytes.length)
    (s : State) : serveWrite offset bytes s = .fault .outsideRegisterSpace :=
  if_pos h

theorem serveRead_notWhole {offset size : Nat} {s : State} (inside : offset + size ≤ Config.spaceSize)
    (h : target s.params offset size = .notWhole) : serveRead offset size s = .refused .partialAccess := by
  simp only [serveRead, if_neg (Nat.not_lt.mpr inside), h]

theorem serveWrite_notWhole {offset : Nat} {bytes : List Byte} {s : State}
    (inside : offset + bytes.length ≤ Config.spaceSize) (h : target s.params offset bytes.length = .notWhole) :
    serveWrite offset bytes s = .refused .partialAccess := by
  simp only [serveWrite, if_neg (Nat.not_lt.mpr inside), h]

theorem serveRead_whole_busy {s : State} {r : Reg} (he : r.existsIn s.params = true)
    (hb : statusBusy s.status = true) (hr : r ≠ .status) :
    serveRead r.offset r.size s = .refused .busyAccess := by
  simp [serveRead, Nat.not_lt.mpr r.offset_add_size_le, target_whole he, forbiddenWhileBusy, hb, hr]

theorem serveWrite_whole_busy {s : State} {r : Reg} {bytes : List Byte} (he : r.existsIn s.params = true)
    (hb : statusBusy s.status = true) (hl : bytes.length = r.size) :
    serveWrite r.offset bytes s = .refused .busyAccess := by
  simp [serveWrite, hl, Nat.not_lt.mpr r.offset_add_size_le, target_whole he, forbiddenWhileBusy, hb]

/-! ### Reserved bytes (20_memory.md R66) -/

theorem serveRead_reserved {offset : Nat} {s : State} (inside : offset + 1 ≤ Config.spaceSize)
    (hb : statusBusy s.status = false) (h : target s.params offset 1 = .reservedBytes) :
    serveRead offset 1 s = .next { s with readData := [0x00] } := by
  simp [serveRead, Nat.not_lt.mpr inside, h, forbiddenWhileBusy, hb]

theorem serveWrite_reserved {offset : Nat} {b : Byte} {s : State} (inside : offset + 1 ≤ Config.spaceSize)
    (hb : statusBusy s.status = false) (h : target s.params offset 1 = .reservedBytes) :
    serveWrite offset [b] s = .next s := by
  simp [serveWrite, Nat.not_lt.mpr inside, h, forbiddenWhileBusy, hb]

/-! ### Reading a register -/

theorem readReg_readData (r : Reg) (s : State) (d : List Byte) : readReg r { s with readData := d } = readReg r s := by
  cases r <;> rfl

/-- What a read answers does not depend on the bytes read before. -/
theorem serveRead_readData (offset size : Nat) (s : State) (d : List Byte) :
    serveRead offset size { s with readData := d } = serveRead offset size s := by
  simp only [serveRead, readReg_readData]
  rfl

theorem byteOf_setWidth {w : Nat} (hw : w ≤ 64) (v : BitVec w) (i : Nat) : byteOf (v.setWidth 64) i = byteOf v i := by
  apply BitVec.eq_of_getLsbD_eq
  intro j hj
  simp only [byteOf, BitVec.getLsbD_extractLsb', hj, decide_true, Bool.true_and, BitVec.getLsbD_setWidth]
  by_cases inside : 8 * i + j < 64
  · simp [inside]
  · simp [inside, BitVec.getLsbD_of_ge v (8 * i + j) (hw.trans (Nat.le_of_not_lt inside))]

theorem Reg.bits_le (r : Reg) : r.bits ≤ 64 := by
  have := r.size_le
  omega

/-- The bytes of a register that holds a value of its width are the bytes of the value (20_memory.md R63). -/
theorem toBytes_readReg {r : Reg} {s : State} {v : BitVec r.bits} (h : rawValue r s = v.setWidth 64) :
    toBytes r.size (readReg r s) = (List.range r.size).map (byteOf v) := by
  have cut : readReg r s = v.setWidth 64 := by
    rw [readReg, h, BitVec.setWidth_setWidth_of_le _ r.bits_le, BitVec.setWidth_eq]
  rw [toBytes, cut]
  exact List.map_congr_left fun i _ => byteOf_setWidth r.bits_le v i

theorem byteOf_zero {w : Nat} (v : BitVec w) : byteOf v 0 = v.setWidth 8 :=
  BitVec.eq_of_getLsbD_eq fun j hj => by simp [byteOf, hj]

theorem Reg.size_pay (i : Fin 4) : (Reg.pay i).size = 1 := by revert i; decide

theorem Reg.size_rpmIn (k : Fin 4) : (Reg.rpmIn k).size = 4 := by revert k; decide

theorem Reg.size_inBuf (i : Fin 16) : (Reg.inBuf i).size = 1 := by revert i; decide

theorem Reg.size_outBuf (i : Fin 8) : (Reg.outBuf i).size = 1 := by revert i; decide

theorem Reg.size_rPay (i : Fin 4) : (Reg.rPay i).size = 1 := by revert i; decide

theorem Reg.size_rRpm (k : Fin 4) : (Reg.rRpm k).size = 2 := by revert k; decide

/-- The byte of a register that has one. -/
theorem toBytes_readReg_byte {r : Reg} {s : State} {v : BitVec r.bits} (h : rawValue r s = v.setWidth 64)
    (one : r.size = 1) : toBytes r.size (readReg r s) = [v.setWidth 8] := by
  rw [toBytes_readReg h, one, ← byteOf_zero]
  rfl

theorem fromGroup_some {α : Type} {r : Reg} {group : Option α} {g : α} (h : group = some g)
    (value : α → BitVec 64) (s : State) : fromGroup r group value s = value g := by
  rw [h, fromGroup]

theorem setWidth_ofBool (b : Bool) : (BitVec.ofBool b).setWidth 8 = if b then 0x01 else (0x00 : Byte) := by
  cases b <;> rfl

/-! ### Writing a register -/

theorem writable_ne_cmd {r : Reg} (h : r.writable = true) : r ≠ .cmd := by
  rintro rfl
  cases h

/-- A write of a whole register other than `CMD` of an idle block. -/
theorem step_write_whole {s : State} {r : Reg} {bytes : List Byte} {rest : List HostAccess} (hr : r ≠ .cmd)
    (he : r.existsIn s.params = true) (hl : bytes.length = r.size) (hb : statusBusy s.status = false)
    (hin : s.inbox = .write r.offset bytes :: rest) :
    step s = .next (writeReg r (ofBytes bytes) { s with inbox := rest }) := by
  rw [step_of_cons hin, serve, serveWrite_whole (s := { s with inbox := rest }) he hb hl, hostWrite_of_ne hr]

theorem writeOperand_of_not_writable {r : Reg} (h : r.writable = false) (v : BitVec 64) (o : Operands) :
    writeOperand r v o = o := by
  cases r with
  | inLen | op | succ | dir | vid | pay | node | valIn | rpmIn | inBuf | periodIn | vxIn | vyIn => cases h
  | _ => rfl

theorem get_set_of_ne {α : Type} {n : Nat} {i j : Fin n} (h : i ≠ j) (v : Vector α n) (x : α) :
    (v.set i.val x i.isLt).get j = v.get j :=
  Vector.getElem_set_ne i.isLt j.isLt (Fin.val_ne_of_ne h)

/-- A write of a register is read in no other register. -/
theorem readReg_writeReg_of_ne {q r : Reg} (h : q ≠ r) (v : BitVec 64) (s : State) :
    readReg q (writeReg r v s) = readReg q s := by
  cases q with
  | pay j =>
    cases r with
    | pay i =>
      have apart : i ≠ j := fun hij => h (congrArg Reg.pay hij.symm)
      simp [readReg, rawValue, writeOperand, get_set_of_ne apart]
    | _ => rfl
  | rpmIn j =>
    cases r with
    | rpmIn i =>
      have apart : i ≠ j := fun hij => h (congrArg Reg.rpmIn hij.symm)
      simp [readReg, rawValue, writeOperand, get_set_of_ne apart]
    | _ => rfl
  | inBuf j =>
    cases r with
    | inBuf i =>
      have apart : i ≠ j := fun hij => h (congrArg Reg.inBuf hij.symm)
      simp [readReg, rawValue, writeOperand, get_set_of_ne apart]
    | _ => rfl
  | inLen | op | succ | dir | vid | node | valIn | periodIn | vxIn | vyIn =>
    -- the register written is `q` itself, or one that `q` does not read
    cases r <;> first | exact absurd rfl h | rfl
  | _ => rfl

theorem toBytes_setWidth {n w : Nat} (h : 8 * n ≤ w) (v : BitVec 64) :
    toBytes n ((v.setWidth w).setWidth 64) = toBytes n v := by
  refine List.map_congr_left fun i hi => BitVec.eq_of_getLsbD_eq fun j hj => ?_
  have inside : 8 * i + j < w := by
    rw [List.mem_range] at hi
    omega
  by_cases h64 : 8 * i + j < 64
  · simp [byteOf, hj, inside, h64]
  · simp [byteOf, hj, h64, BitVec.getLsbD_of_ge v (8 * i + j) (Nat.le_of_not_lt h64)]

theorem toBytes_bit (b : Byte) : toBytes 1 (((ofBytes [b]).setWidth 1).setWidth 64) = [b &&& 0x01] := by
  revert b; decide

/-- The operand registers fill their bytes but for the two flags (20_memory.md R66). -/
theorem Reg.bits_of_writable {r : Reg} (h : r.writable = true) (flag : ¬ (r = .succ ∨ r = .dir)) :
    8 * r.size ≤ r.bits := by
  have key : ∀ r ∈ Reg.all, r.writable = true → ¬ (r = .succ ∨ r = .dir) → 8 * r.size ≤ r.bits := by decide
  exact key r r.mem_all h flag

/-- The bytes of a register are the bytes written to it, of a flag bit 0 alone (20_memory.md R63, R66). -/
theorem toBytes_readReg_writeReg {r : Reg} {bytes : List Byte} (hw : r.writable = true) (hl : bytes.length = r.size)
    (s : State) : toBytes r.size (readReg r (writeReg r (ofBytes bytes) s)) =
      if r = .succ ∨ r = .dir then bytes.map (· &&& 0x01) else bytes := by
  rw [readReg_writeReg hw]
  split
  next flag =>
    have one : r.size = 1 ∧ r.bits = 1 := by
      obtain rfl | rfl := flag <;> exact ⟨rfl, rfl⟩
    obtain ⟨b, rfl⟩ := List.length_eq_one_iff.mp (hl.trans one.1)
    rw [one.1, one.2]
    exact toBytes_bit b
  next word =>
    rw [toBytes_setWidth (Reg.bits_of_writable hw word), ← hl]
    exact toBytes_ofBytes bytes (hl ▸ r.size_le.1)

/-! ### Reset (10_state.md R49) -/

/-- Every operand register reads 0 where the operands are as a reset leaves them. -/
theorem readReg_of_reset {r : Reg} {s : State} (hw : r.writable = true) (h : s.ops = .reset) : readReg r s = 0 := by
  rw [readReg]
  cases r with
  | inLen | op | succ | dir | vid | node | valIn | periodIn | vxIn | vyIn => rw [rawValue, h]; rfl
  | pay i => rw [rawValue, h]; revert i; decide
  | rpmIn i => rw [rawValue, h]; revert i; decide
  | inBuf i => rw [rawValue, h]; revert i; decide
  | _ => cases hw

end Sys2Proof.Machine

open Sys2Proof Sys2Proof.Machine

/-- Settles O52: the register met is not the whole access. -/
theorem partialAccessesAreRefused : Obligations.PartialAccessesAreRefused := by
  unfold Obligations.PartialAccessesAreRefused
  intro s r offset size bytes rest he ho hne inside hl
  subst hl
  constructor
  · intro hin
    rw [step_of_cons hin]
    exact serveRead_notWhole inside (target_partial he ho hne)
  · intro hin
    rw [step_of_cons hin]
    exact serveWrite_notWhole inside (target_partial he ho hne)

/-- Settles O53: the bounds of the space come before every other test. -/
theorem accessesBeyondTheSpaceStop : Obligations.AccessesBeyondTheSpaceStop := by
  unfold Obligations.AccessesBeyondTheSpaceStop
  intro s offset size bytes rest beyond hl
  subst hl
  constructor
  · intro hin
    rw [step_of_cons hin]
    exact serveRead_beyond beyond _
  · intro hin
    rw [step_of_cons hin]
    exact serveWrite_beyond beyond _

/-- Settles O54: a whole register is met, and only a read of `STATUS` passes the guard. -/
theorem busyBlockAnswersStatusOnly : Obligations.BusyBlockAnswersStatusOnly := by
  unfold Obligations.BusyBlockAnswersStatusOnly
  intro s r bytes rest busy he hl
  constructor
  · intro hin
    rw [step_of_cons hin, serve]
    split
    next hr =>
      subst hr
      refine (serveRead_whole (r := .status) (s := { s with inbox := rest }) he (.inr rfl)).trans ?_
      exact congrArg (fun bytes => Host.Outcome.next { s with inbox := rest, readData := bytes })
        (toBytes_readReg_byte (r := .status) (v := s.status) rfl rfl)
    next hr => exact serveRead_whole_busy (s := { s with inbox := rest }) he busy hr
  · intro hin
    rw [step_of_cons hin]
    exact serveWrite_whole_busy (s := { s with inbox := rest }) he busy hl

/-- Settles O55: the byte meets reserved bytes only. -/
theorem reservedBytesReadZero : Obligations.ReservedBytesReadZero := by
  unfold Obligations.ReservedBytesReadZero
  intro s offset b rest inside hidle free
  constructor
  · intro hin
    rw [step_of_cons hin]
    exact serveRead_reserved (s := { s with inbox := rest }) inside hidle (target_reserved free)
  · intro hin
    rw [step_of_cons hin]
    exact serveWrite_reserved (s := { s with inbox := rest }) inside hidle (target_reserved free)

/-- Settles O50: a read leaves the state but for the bytes read, on which no read depends. -/
theorem hostReadsHaveNoSideEffect : Obligations.HostReadsHaveNoSideEffect := by
  unfold Obligations.HostReadsHaveNoSideEffect
  intro s t offset size rest hin hstep
  rw [step_of_cons hin] at hstep
  obtain ⟨d, rfl⟩ := serveRead_next hstep
  exact ⟨rfl, (serveRead_readData offset size { s with inbox := rest } d).trans hstep⟩

/-- Settles O48: a writable register holds the low bits of its width, and its bytes are those written. -/
theorem writtenRegisterReadsBack : Obligations.WrittenRegisterReadsBack := by
  unfold Obligations.WrittenRegisterReadsBack
  intro s r bytes rest hw he hl hidle hin
  exact ⟨_, _, step_write_whole (writable_ne_cmd hw) he hl hidle hin,
    step_read_whole (s := writeReg r (ofBytes bytes) s) he hidle rest, toBytes_readReg_writeReg hw hl s⟩

/-- Settles O49: a write touches the operand of its register, in which no other register reads. -/
theorem hostWriteChangesOneRegisterAtMost : Obligations.HostWriteChangesOneRegisterAtMost := by
  unfold Obligations.HostWriteChangesOneRegisterAtMost
  intro s r bytes rest hr he hl hidle hin
  refine ⟨_, step_write_whole hr he hl hidle hin, rfl, fun readOnly => ?_, fun q hq => ?_⟩
  · exact writeOperand_of_not_writable readOnly _ s.ops
  · rw [readReg_writeReg_of_ne hq, readReg_inbox]

/-- Settles O56: a reset is served whatever the block does, and every operand register reads 0 after it. -/
theorem resetLeavesTheTable : Obligations.ResetLeavesTheTable := by
  unfold Obligations.ResetLeavesTheTable
  intro s rest hin
  have noneValid : Results.reset.rvalid = 0x00 := by decide
  exact ⟨_, step_of_cons hin, rfl, rfl, noneValid, rfl, rfl, fun r hw => readReg_of_reset hw rfl,
    rfl, rfl, rfl, rfl⟩

/-- Settles O51: register by register, each the bytes of the value it holds. -/
theorem hostReadsReturnTheRegisters : Obligations.HostReadsReturnTheRegisters := by
  unfold Obligations.HostReadsReturnTheRegisters
  intro s rest hidle reads one two four eight
  have whole (r : Reg) (v : BitVec r.bits) {n : Nat} (he : r.existsIn s.params = true) (size : r.size = n)
      (h : rawValue r s = v.setWidth 64) : reads r.offset ((List.range n).map (byteOf v)) := by
    have run := step_read_whole he hidle rest
    rw [toBytes_readReg h, size] at run
    simpa [reads] using run
  have byte (r : Reg) (v : BitVec r.bits) (he : r.existsIn s.params = true) (size : r.size = 1)
      (h : rawValue r s = v.setWidth 64) : reads r.offset [v.setWidth 8] := by
    have run := step_read_whole he hidle rest
    rwa [toBytes_readReg_byte h size, size] at run
  have bit {offset : Nat} {b : Bool} (h : reads offset [(BitVec.ofBool b).setWidth 8]) : reads offset (one b) := by
    rwa [setWidth_ofBool] at h
  refine ⟨?control, ?operands, ?out, ?rr, ?tlm, ?val, ?fmt, ?addr, ?tmr, ?vec⟩
  case control =>
    exact ⟨byte .cmd s.cmd rfl rfl rfl, byte .status s.status rfl rfl rfl, s.res.rvalid,
      byte .rvalid s.res.rvalid rfl rfl rfl, rvalid_bits s.res⟩
  case operands =>
    refine ⟨byte .inLen s.ops.inLen rfl rfl rfl, byte .op s.ops.op rfl rfl rfl,
      bit (byte .succ (.ofBool s.ops.succ) rfl rfl rfl), bit (byte .dir (.ofBool s.ops.dir) rfl rfl rfl),
      whole .vid s.ops.vid rfl rfl rfl, fun i => byte (.pay i) (s.ops.pay.get i) rfl (Reg.size_pay i) rfl,
      whole .node s.ops.node rfl rfl rfl, fun valEnc => whole .valIn s.ops.valIn valEnc rfl rfl,
      fun k => whole (.rpmIn k) (s.ops.rpmIn.get k) rfl (Reg.size_rpmIn k) rfl,
      fun i => byte (.inBuf i) (s.ops.inBuf.get i) rfl (Reg.size_inBuf i) rfl⟩
  case out =>
    intro g hg
    exact ⟨fun j => byte (.outBuf j) (g.buf.get j) rfl (Reg.size_outBuf j) (fromGroup_some hg _ s),
      byte .outLen g.len rfl rfl (fromGroup_some hg _ s)⟩
  case rr =>
    intro g hg
    exact ⟨byte .rOp g.op rfl rfl (fromGroup_some hg _ s),
      bit (byte .rSucc (.ofBool g.succ) rfl rfl (fromGroup_some hg _ s)),
      byte .rOpcls g.cls rfl rfl (fromGroup_some hg _ s), whole .rVid g.vid rfl rfl (fromGroup_some hg _ s),
      fun i => byte (.rPay i) (g.pay.get i) rfl (Reg.size_rPay i) (fromGroup_some hg _ s),
      whole .rRrTs g.ts rfl rfl (fromGroup_some hg _ s)⟩
  case tlm =>
    intro g hg
    exact ⟨fun k => whole (.rRpm k) (g.rpm.get k) rfl (Reg.size_rRpm k) (fromGroup_some hg _ s),
      whole .rTlmTs g.ts rfl rfl (fromGroup_some hg _ s)⟩
  case val =>
    intro g hg
    exact ⟨byte .rFmt g.fmt rfl rfl (fromGroup_some hg _ s), whole .rVal g.val rfl rfl (fromGroup_some hg _ s)⟩
  case fmt =>
    intro f hf
    exact byte .rLfmt f rfl rfl (fromGroup_some hf _ s)
  case addr =>
    intro a ha
    exact whole .rAddr a rfl rfl (fromGroup_some ha _ s)
  case tmr =>
    intro timer
    refine ⟨whole .periodIn s.ops.periodIn timer rfl rfl,
      bit (byte .tmrCreated (.ofBool s.timer.isSome) timer rfl rfl), fun t ht => ?_, fun g hg => ?_⟩
    · exact ⟨whole .tmrPeriod t.period timer rfl (fromGroup_some ht _ s),
        whole .tmrDeadline t.deadline timer rfl (fromGroup_some ht _ s)⟩
    · exact ⟨whole .rMissed g.missed timer rfl (fromGroup_some hg _ s),
        bit (byte .rFired (.ofBool g.fired) timer rfl (fromGroup_some hg _ s))⟩
  case vec =>
    intro vec2
    refine ⟨whole .vxIn s.ops.vxIn vec2 rfl rfl, whole .vyIn s.ops.vyIn vec2 rfl rfl, fun g hg => ?_⟩
    exact ⟨whole .rVx g.x vec2 rfl (fromGroup_some hg _ s), whole .rVy g.y vec2 rfl (fromGroup_some hg _ s)⟩

end

section
/-! PROOF. The tool that builds the registry ROM: by induction on the table (70_reset_and_hazards.md R243). -/

namespace Sys2Proof.Machine

theorem formatOf_cons_of_ne {id vid : Half} (h : id ≠ vid) (f : WireFormat) (rest : Registry) :
    Registry.formatOf ((id, f) :: rest) vid = Registry.formatOf rest vid :=
  if_neg h

/-- A row whose id no later row has is put before the ROM of the rest. -/
theorem buildRom_cons_of_new {name : String} {id : Half} {f : WireFormat} {rest : List (String × Half × WireFormat)}
    (new : ∀ row ∈ rest, row.2.1 ≠ id) :
    buildRom ((name, id, f) :: rest) = (buildRom rest).map fun rom => (id, f) :: rom := by
  have unmet : rest.find? (fun row => decide (row.2.1 = id)) = none := by simpa using new
  rw [buildRom, unmet]

/-- A row whose id a later row has is reported with such a row. -/
theorem buildRom_cons_of_taken {name : String} {id : Half} {f : WireFormat}
    {rest : List (String × Half × WireFormat)} (taken : ¬ ∀ row ∈ rest, row.2.1 ≠ id) :
    ∃ other g, (other, id, g) ∈ rest ∧ buildRom ((name, id, f) :: rest) = .error (name, other, id) := by
  cases met : rest.find? (fun row => decide (row.2.1 = id)) with
  | none => exact absurd (by simpa using met) taken
  | some row =>
    obtain ⟨other, otherId, g⟩ := row
    obtain rfl : otherId = id := by simpa using List.find?_some met
    exact ⟨other, g, List.mem_of_find?_eq_some met, by rw [buildRom, met]⟩

theorem map_eq_ok_iff {ε α β : Type} {x : Except ε α} {f : α → β} {b : β} :
    x.map f = .ok b ↔ ∃ a, x = .ok a ∧ f a = b := by
  cases x <;> simp [Except.map]

theorem map_eq_error_iff {ε α β : Type} {x : Except ε α} {f : α → β} {e : ε} : x.map f = .error e ↔ x = .error e := by
  cases x <;> simp [Except.map]

/-- A ROM was built of a new row and the ROM of the rest. -/
theorem buildRom_cons_ok {name : String} {id : Half} {f : WireFormat} {rest : List (String × Half × WireFormat)}
    {rom : Registry} (h : buildRom ((name, id, f) :: rest) = .ok rom) :
    (∀ row ∈ rest, row.2.1 ≠ id) ∧ ∃ tail, buildRom rest = .ok tail ∧ (id, f) :: tail = rom := by
  by_cases new : ∀ row ∈ rest, row.2.1 ≠ id
  · rw [buildRom_cons_of_new new, map_eq_ok_iff] at h
    exact ⟨new, h⟩
  · obtain ⟨other, g, _, report⟩ := buildRom_cons_of_taken (name := name) (f := f) new
    cases report.symm.trans h

/-- The tool succeeds exactly on the tables without two rows on one id. -/
theorem buildRom_succeeds_iff (table : List (String × Half × WireFormat)) :
    (∃ rom, buildRom table = .ok rom) ↔ (table.map fun row => row.2.1).Nodup := by
  induction table with
  | nil => exact ⟨fun _ => List.nodup_nil, fun _ => ⟨[], rfl⟩⟩
  | cons row rest ih =>
    obtain ⟨name, id, f⟩ := row
    rw [List.map_cons, List.nodup_cons, ← ih]
    constructor
    · rintro ⟨rom, h⟩
      obtain ⟨new, tail, htail, _⟩ := buildRom_cons_ok h
      refine ⟨fun taken => ?_, tail, htail⟩
      obtain ⟨row, hrow, hid⟩ := List.mem_map.mp taken
      exact new row hrow hid
    · rintro ⟨notMem, tail, htail⟩
      have new : ∀ row ∈ rest, row.2.1 ≠ id := fun row hrow hid => notMem (List.mem_map.mpr ⟨row, hrow, hid⟩)
      exact ⟨_, (buildRom_cons_of_new new).trans (map_eq_ok_iff.mpr ⟨tail, htail, rfl⟩)⟩

/-- A ROM answers the format of every row of its table. -/
theorem formatOf_of_mem {table : List (String × Half × WireFormat)} {rom : Registry} (h : buildRom table = .ok rom) :
    ∀ row ∈ table, Registry.formatOf rom row.2.1 = some row.2.2 := by
  induction table generalizing rom with
  | nil => exact fun row hrow => absurd hrow List.not_mem_nil
  | cons first rest ih =>
    obtain ⟨name, id, f⟩ := first
    obtain ⟨new, tail, htail, rfl⟩ := buildRom_cons_ok h
    rw [List.forall_mem_cons]
    refine ⟨formatOf_cons_self id f tail, fun row hrow => ?_⟩
    rw [formatOf_cons_of_ne (new row hrow).symm]
    exact ih htail row hrow

/-- A ROM answers no id its table lacks. -/
theorem formatOf_of_absent {table : List (String × Half × WireFormat)} {rom : Registry}
    (h : buildRom table = .ok rom) {vid : Half} (absent : ∀ row ∈ table, row.2.1 ≠ vid) :
    Registry.formatOf rom vid = none := by
  induction table generalizing rom with
  | nil =>
    obtain rfl := Except.ok.inj h
    rfl
  | cons first rest ih =>
    obtain ⟨name, id, f⟩ := first
    obtain ⟨_, tail, htail, rfl⟩ := buildRom_cons_ok h
    rw [List.forall_mem_cons] at absent
    rw [formatOf_cons_of_ne absent.1]
    exact ih htail absent.2

/-- A report names two rows on one id at two places of the table. -/
theorem sublist_of_buildRom_error {table : List (String × Half × WireFormat)} {name other : String} {id : Half}
    (h : buildRom table = .error (name, other, id)) :
    ∃ f g, List.Sublist [(name, id, f), (other, id, g)] table := by
  induction table with
  | nil => cases h
  | cons first rest ih =>
    obtain ⟨firstName, firstId, f⟩ := first
    by_cases new : ∀ row ∈ rest, row.2.1 ≠ firstId
    · rw [buildRom_cons_of_new new, map_eq_error_iff] at h
      obtain ⟨f, g, inRest⟩ := ih h
      exact ⟨f, g, inRest.cons _⟩
    · obtain ⟨met, g, hmet, report⟩ := buildRom_cons_of_taken (name := firstName) (f := f) new
      cases report.symm.trans h
      exact ⟨f, g, (List.singleton_sublist.mpr hmet).cons_cons _⟩

end Sys2Proof.Machine

open Sys2Proof Sys2Proof.Machine

/-- Settles O31: by induction on the table, whose first row is new or meets a later one. -/
theorem romToolReportsExactlyTheCollisions : Obligations.RomToolReportsExactlyTheCollisions := by
  unfold Obligations.RomToolReportsExactlyTheCollisions
  intro table
  refine ⟨buildRom_succeeds_iff table, fun rom h => ⟨formatOf_of_mem h, fun id => formatOf_of_absent h⟩, ?_⟩
  intro name other id h
  exact sublist_of_buildRom_error h

end

section
/-! PROOF. The causes of the errors: each cause raises its error, and each error raised has its cause
(60_exceptions.md R191, R199). -/

namespace Sys2Proof.Machine

/-- The causes of an error, command by command, with the priorities of 60_exceptions.md R199. -/
def Cause (i : Instr) (s : State) : CommandError → Prop
  | .invalidOperation => (i = .rrEnc ∨ i = .rrBuild) ∧ 128 ≤ s.ops.op.toNat
  | .malformedPacket =>
    ((i = .rrDec ∨ i.format = .rrByte0) ∧ s.ops.inLen.toNat ≠ 7 + s.params.rrPadLen.val)
      ∨ (i = .tlmDec ∧ s.ops.inLen ≠ 8)
  | .invalidPayloadLength => (i = .valDec ∨ i.format = .valFmt) ∧ s.ops.inLen ≠ 4
  | .unregisteredValueId =>
    vidFormat s = none
      ∧ (i = .fmtLookup ∨ (i = .valDec ∧ s.ops.inLen = 4) ∨ (i = .valEnc ∧ s.params.hasValEnc = true))
  | .valueOutOfRange =>
    (i = .tlmEnc ∧ ∃ k : Fin 4, fitsSigned16 (s.ops.rpmIn.get k) = false)
      ∨ (i = .valEnc ∧ s.params.hasValEnc = true ∧
        ((vidFormat s = some .signedShort16 ∧ fitsSigned16 s.ops.valIn = false)
          ∨ (vidFormat s = some .unsignedShort16 ∧ 65535 < s.ops.valIn.toNat)))
      ∨ (i = .tmrInit ∧ s.params.hasTimer = true ∧ s.ops.periodIn = 0)
  | .illegalCommand => unitPresent s.params i = false ∨ ((i = .tmrCheck ∨ i = .tmrReset) ∧ s.timer = none)

theorem inLen_toNat_ne {s : State} {len : Byte} (h : s.ops.inLen ≠ len) : s.ops.inLen.toNat ≠ len.toNat :=
  fun same => h (BitVec.eq_of_toNat_eq same)

/-- A row of byte 0 and RR_DEC deliver a message. -/
theorem exec_frame_row {i : Instr} (h : i = .rrDec ∨ i.format = .rrByte0) (s : State) :
    ∃ op flag cls, exec i s = deliver op flag cls s := by
  obtain rfl | format := h
  · exact ⟨_, _, _, rfl⟩
  · cases i with
    | noOp | read | write | store | reserved => exact ⟨_, _, _, rfl⟩
    | _ => cases format

/-- A row of a wire format interprets the payload. -/
theorem exec_format_row {i : Instr} (h : i.format = .valFmt) (s : State) :
    ∃ fmt value, exec i s = interpret fmt value s := by
  cases i with
  | signedShort16 | unsignedShort16 | float32 | bool8 => exact ⟨_, _, rfl⟩
  | _ => cases h

/-- Each cause raises its error. -/
theorem exec_of_cause {i : Instr} {s : State} {e : CommandError} (h : Cause i s e) :
    ∃ groups, exec i s = .next (raised e groups s) := by
  cases e with
  | invalidOperation =>
    obtain ⟨rfl | rfl, wide⟩ := h
    · exact ⟨_, exec_rrEnc_of_tooWide wide⟩
    · exact ⟨_, exec_rrBuild_of_tooWide wide⟩
  | malformedPacket =>
    obtain ⟨row, length⟩ | ⟨rfl, length⟩ := h
    · obtain ⟨op, flag, cls, run⟩ := exec_frame_row row s
      exact ⟨_, run.trans (deliver_of_wrong_length length op flag cls)⟩
    · exact ⟨_, exec_tlmDec_of_wrong_length (inLen_toNat_ne length)⟩
  | invalidPayloadLength =>
    obtain ⟨rfl | format, length⟩ := h
    · exact ⟨_, exec_valDec_of_wrong_length (inLen_toNat_ne length)⟩
    · obtain ⟨fmt, value, run⟩ := exec_format_row format s
      exact ⟨_, run.trans (interpret_of_wrong_length (inLen_toNat_ne length) fmt value)⟩
  | unregisteredValueId =>
    obtain ⟨hfmt, rfl | ⟨rfl, length⟩ | ⟨rfl, present⟩⟩ := h
    · exact ⟨_, exec_fmtLookup_of_unregistered hfmt⟩
    · exact ⟨_, exec_valDec_of_unregistered (by rw [length]; rfl) hfmt⟩
    · exact ⟨_, exec_valEnc_of_unregistered present hfmt⟩
  | valueOutOfRange =>
    obtain ⟨rfl, k, outOfRange⟩ | ⟨rfl, present, ⟨hfmt, outOfRange⟩ | ⟨hfmt, outOfRange⟩⟩ | ⟨rfl, present, zero⟩ := h
    · exact ⟨_, exec_tlmEnc_of_outOfRange outOfRange⟩
    · exact ⟨_, exec_valEnc_of_outOfRange present hfmt outOfRange⟩
    · exact ⟨_, exec_valEnc_of_outOfRange present hfmt ((fitsUnsigned16_eq_false_iff _).mpr outOfRange)⟩
    · exact ⟨_, exec_tmrInit_of_zero present zero⟩
  | illegalCommand =>
    obtain absent | ⟨rfl | rfl, noTimer⟩ := h
    · exact ⟨_, exec_of_unit_absent absent⟩
    · exact ⟨_, exec_tmrCheck_of_no_timer noTimer⟩
    · exact ⟨_, exec_tmrReset_of_no_timer noTimer⟩

/-- A state a command leaves: an error with its cause, or no error. -/
def Explained (i : Instr) (s t : State) : Prop :=
  (∃ e groups, t = raised e groups s ∧ Cause i s e) ∨ statusErr t.status = 0

theorem Explained.error {i : Instr} {s t : State} (run : exec i s = .next t) {e : CommandError} {groups : List Group}
    (h : exec i s = .next (raised e groups s)) (cause : Cause i s e) : Explained i s t :=
  .inl ⟨e, groups, next_unique run h, cause⟩

theorem Explained.success {i : Instr} {s t u : State} (run : exec i s = .next t) {c : Bool}
    (h : exec i s = .next (finish 0 c u)) : Explained i s t :=
  .inr (next_unique run h ▸ statusErr_statusDone 0 c)

theorem explained_frame_row {i : Instr} {s t : State} (row : i = .rrDec ∨ i.format = .rrByte0)
    (run : exec i s = .next t) : Explained i s t := by
  obtain ⟨op, flag, cls, meaning⟩ := exec_frame_row row s
  by_cases length : s.ops.inLen.toNat = rrLen s.params
  · exact .success run (meaning.trans (deliver_of_length length op flag cls))
  · exact .error run (meaning.trans (deliver_of_wrong_length length op flag cls)) (.inl ⟨row, length⟩)

theorem explained_format_row {i : Instr} {s t : State} (format : i.format = .valFmt) (run : exec i s = .next t) :
    Explained i s t := by
  obtain ⟨fmt, value, meaning⟩ := exec_format_row format s
  by_cases length : s.ops.inLen = 4
  · exact .success run (meaning.trans (interpret_of_length (by rw [length]; rfl) fmt value))
  · exact .error run (meaning.trans (interpret_of_wrong_length (inLen_toNat_ne length) fmt value))
      ⟨.inr format, length⟩

theorem explained_valEnc {s t : State} (present : s.params.hasValEnc = true) (run : exec .valEnc s = .next t) :
    Explained .valEnc s t := by
  cases hfmt : vidFormat s with
  | none => exact .error run (exec_valEnc_of_unregistered present hfmt) ⟨hfmt, .inr (.inr ⟨rfl, present⟩)⟩
  | some f =>
    cases fits : valueFits f s.ops.valIn with
    | true => exact .success run (exec_valEnc_of_fits present hfmt fits)
    | false =>
      refine .error run (exec_valEnc_of_outOfRange present hfmt fits) (.inr (.inl ⟨rfl, present, ?_⟩))
      cases f with
      | signedShort16 => exact .inl ⟨hfmt, fits⟩
      | unsignedShort16 => exact .inr ⟨hfmt, (fitsUnsigned16_eq_false_iff _).mp fits⟩
      | float32 | bool8 => cases fits

/-- Each error raised has its cause. -/
theorem exec_explained {i : Instr} {s t : State} (run : exec i s = .next t) : Explained i s t := by
  by_cases present : unitPresent s.params i = true
  · cases i with
    | rrEnc =>
      obtain fits | wide := Nat.lt_or_ge s.ops.op.toNat 128
      · exact .success run (exec_rrEnc_of_fits fits)
      · exact .error run (exec_rrEnc_of_tooWide wide) ⟨.inl rfl, wide⟩
    | rrBuild =>
      obtain fits | wide := Nat.lt_or_ge s.ops.op.toNat 128
      · exact .success run (exec_rrBuild_of_fits fits)
      · exact .error run (exec_rrBuild_of_tooWide wide) ⟨.inr rfl, wide⟩
    | tlmEnc =>
      by_cases fits : ∀ k : Fin 4, fitsSigned16 (s.ops.rpmIn.get k) = true
      · exact .success run (exec_tlmEnc_of_fits fits)
      · obtain ⟨k, outOfRange⟩ := not_forall.mp fits
        rw [Bool.not_eq_true] at outOfRange
        exact .error run (exec_tlmEnc_of_outOfRange outOfRange) (.inl ⟨rfl, k, outOfRange⟩)
    | tlmDec =>
      by_cases length : s.ops.inLen = 8
      · exact .success run (exec_tlmDec_of_length (by rw [length]; rfl))
      · exact .error run (exec_tlmDec_of_wrong_length (inLen_toNat_ne length)) (.inr ⟨rfl, length⟩)
    | fmtLookup =>
      cases hfmt : vidFormat s with
      | none => exact .error run (exec_fmtLookup_of_unregistered hfmt) ⟨hfmt, .inl rfl⟩
      | some f => exact .success run (exec_fmtLookup_of_registered hfmt)
    | valDec =>
      by_cases length : s.ops.inLen = 4
      · have bytes : s.ops.inLen.toNat = 4 := by rw [length]; rfl
        cases hfmt : vidFormat s with
        | none => exact .error run (exec_valDec_of_unregistered bytes hfmt) ⟨hfmt, .inr (.inl ⟨rfl, length⟩)⟩
        | some f => exact .success run (exec_valDec_of_registered bytes hfmt)
      · exact .error run (exec_valDec_of_wrong_length (inLen_toNat_ne length)) ⟨.inl rfl, length⟩
    | valEnc => exact explained_valEnc present run
    | tmrInit =>
      by_cases zero : s.ops.periodIn = 0
      · exact .error run (exec_tmrInit_of_zero present zero) (.inr (.inr ⟨rfl, present, zero⟩))
      · exact .success run (exec_tmrInit_of_nonzero present zero)
    | tmrCheck =>
      cases htimer : s.timer with
      | none => exact .error run (exec_tmrCheck_of_none present htimer) (.inr ⟨.inl rfl, htimer⟩)
      | some tm =>
        rw [exec_tmrCheck_of_some present htimer] at run
        obtain ⟨_, rfl⟩ | ⟨_, _, _, rfl⟩ := checkTimer_next run
        · exact .inr (statusErr_statusDone 0 _)
        · exact .inr (statusErr_statusDone 0 _)
    | tmrReset =>
      cases htimer : s.timer with
      | none => exact .error run (exec_tmrReset_of_no_timer htimer) (.inr ⟨.inr rfl, htimer⟩)
      | some tm =>
        rw [exec_tmrReset_of_present present] at run
        obtain ⟨_, rfl⟩ := tmrResetPresent_next htimer run
        exact .inr (statusErr_statusDone 0 _)
    | vec2New => exact .success run (exec_vec2New_of_present present)
    | rrDec => exact explained_frame_row (.inl rfl) run
    | noOp | read | write | store | reserved => exact explained_frame_row (.inr rfl) run
    | signedShort16 | unsignedShort16 | float32 | bool8 => exact explained_format_row rfl run
  · rw [Bool.not_eq_true] at present
    exact .error run (exec_of_unit_absent present) (.inl present)

theorem CommandError.code_injective {e e' : CommandError} (h : e.code = e'.code) : e = e' := by
  revert h
  cases e <;> cases e' <;> decide

/-- `STATUS.ERR` tells an error exactly where it has its cause (60_exceptions.md R191). -/
theorem statusErr_eq_code_iff {i : Instr} {s t : State} (run : exec i s = .next t) (e : CommandError) :
    (statusErr t.status).toNat = e.code.toNat ↔ Cause i s e := by
  rw [BitVec.toNat_inj]
  constructor
  · intro code
    obtain ⟨e', groups, rfl, cause⟩ | ok := exec_explained run
    · rw [raised_status, statusErr_statusDone] at code
      exact CommandError.code_injective code ▸ cause
    · exact absurd (code.symm.trans ok) e.code_ne_zero
  · intro cause
    obtain ⟨groups, raises⟩ := exec_of_cause cause
    rw [next_unique run raises, raised_status, statusErr_statusDone]

end Sys2Proof.Machine

open Sys2Proof Sys2Proof.Machine

/-- Settles O43: error by error, each exactly where it has its cause. -/
theorem errorCodesHaveExactlyTheirCauses : Obligations.ErrorCodesHaveExactlyTheirCauses := by
  unfold Obligations.ErrorCodesHaveExactlyTheirCauses
  intro i s t run e unregistered
  have causes := statusErr_eq_code_iff run
  exact ⟨causes .invalidOperation, causes .malformedPacket, causes .invalidPayloadLength,
    causes .unregisteredValueId, causes .valueOutOfRange, causes .illegalCommand, (exec_answer run).statusOk.code⟩

end
